-- ==== Sys2Proof/Word.lean ====
section
/-! DEFINITION. The two value types of the machine: the 16-bit word and the 8-bit byte (00_scope.md R9, 20_memory.md R41). -/

namespace Sys2Proof

/-- A register value, an address or an instruction word: 16 bits (R9, R20, R24, R60). -/
abbrev Word := BitVec 16

/-- What one memory address holds: 8 bits (R41). -/
abbrev Byte := BitVec 8

end Sys2Proof
end

