-- ==== Sys2Proof/Syntax.lean ====
section
/-! DEFINITION. The 38 instructions (00_scope.md R2), one constructor per row of the opcode map (30_encoding.md R70).
Operands stand in the assembler's order (R74, R75) and as the integers an assembler writes; their ranges (R76) are
checked in WellFormed. -/

namespace Sys2Proof

/-- The number of a general register, R0 to R7 (10_state.md R21). -/
abbrev RegNo := Fin 8

/-- One instruction. `imm` and `disp` are signed where the instruction's rule sign-extends them and natural numbers
where it zero-extends them (R67); the shift-immediates carry the amount of R69, the low four bits of the field. -/
inductive Instr where
  /-- R100 -/
  | halt
  /-- R101 -/
  | nop
  /-- R180 -/
  | siic (rs : RegNo)
  /-- R181 -/
  | rti
  /-- R171 -/
  | j (disp : Int)
  /-- R172 -/
  | jr (rs : RegNo) (imm : Int)
  /-- R173 -/
  | jal (disp : Int)
  /-- R174 -/
  | jalr (rs : RegNo) (imm : Int)
  /-- R111 -/
  | addi (rd rs : RegNo) (imm : Int)
  /-- R112 -/
  | subi (rd rs : RegNo) (imm : Int)
  /-- R113 -/
  | xori (rd rs : RegNo) (imm : Nat)
  /-- R114 -/
  | andni (rd rs : RegNo) (imm : Nat)
  /-- R151 -/
  | beqz (rs : RegNo) (imm : Int)
  /-- R152 -/
  | bnez (rs : RegNo) (imm : Int)
  /-- R153 -/
  | bltz (rs : RegNo) (imm : Int)
  /-- R154 -/
  | bgez (rs : RegNo) (imm : Int)
  /-- R121 -/
  | st (rd rs : RegNo) (imm : Int)
  /-- R122 -/
  | ld (rd rs : RegNo) (imm : Int)
  /-- R161 -/
  | slbi (rs : RegNo) (imm : Nat)
  /-- R123 -/
  | stu (rd rs : RegNo) (imm : Int)
  /-- R115 -/
  | roli (rd rs : RegNo) (amount : Nat)
  /-- R116 -/
  | slli (rd rs : RegNo) (amount : Nat)
  /-- R117 -/
  | rori (rd rs : RegNo) (amount : Nat)
  /-- R118 -/
  | srli (rd rs : RegNo) (amount : Nat)
  /-- R160 -/
  | lbi (rs : RegNo) (imm : Int)
  /-- R131 -/
  | btr (rd rs : RegNo)
  /-- R136 -/
  | rol (rd rs rt : RegNo)
  /-- R137 -/
  | sll (rd rs rt : RegNo)
  /-- R138 -/
  | ror (rd rs rt : RegNo)
  /-- R139 -/
  | srl (rd rs rt : RegNo)
  /-- R132 -/
  | add (rd rs rt : RegNo)
  /-- R133 -/
  | sub (rd rs rt : RegNo)
  /-- R134 -/
  | xor (rd rs rt : RegNo)
  /-- R135 -/
  | andn (rd rs rt : RegNo)
  /-- R141 -/
  | seq (rd rs rt : RegNo)
  /-- R142 -/
  | slt (rd rs rt : RegNo)
  /-- R143 -/
  | sle (rd rs rt : RegNo)
  /-- R144 -/
  | sco (rd rs rt : RegNo)
  deriving DecidableEq, Repr

/-- The mnemonic of R70, letter for letter. -/
def Instr.mnemonic : Instr → String
  | .halt => "HALT"
  | .nop => "NOP"
  | .siic _ => "siic"
  | .rti => "RTI"
  | .j _ => "J"
  | .jr _ _ => "JR"
  | .jal _ => "JAL"
  | .jalr _ _ => "JALR"
  | .addi _ _ _ => "ADDI"
  | .subi _ _ _ => "SUBI"
  | .xori _ _ _ => "XORI"
  | .andni _ _ _ => "ANDNI"
  | .beqz _ _ => "BEQZ"
  | .bnez _ _ => "BNEZ"
  | .bltz _ _ => "BLTZ"
  | .bgez _ _ => "BGEZ"
  | .st _ _ _ => "ST"
  | .ld _ _ _ => "LD"
  | .slbi _ _ => "SLBI"
  | .stu _ _ _ => "STU"
  | .roli _ _ _ => "ROLI"
  | .slli _ _ _ => "SLLI"
  | .rori _ _ _ => "RORI"
  | .srli _ _ _ => "SRLI"
  | .lbi _ _ => "LBI"
  | .btr _ _ => "BTR"
  | .rol _ _ _ => "ROL"
  | .sll _ _ _ => "SLL"
  | .ror _ _ _ => "ROR"
  | .srl _ _ _ => "SRL"
  | .add _ _ _ => "ADD"
  | .sub _ _ _ => "SUB"
  | .xor _ _ _ => "XOR"
  | .andn _ _ _ => "ANDN"
  | .seq _ _ _ => "SEQ"
  | .slt _ _ _ => "SLT"
  | .sle _ _ _ => "SLE"
  | .sco _ _ _ => "SCO"

end Sys2Proof
end

