-- ==== Sys2Proof/WellFormed.lean ====
section
/-! DEFINITION. Which instructions an assembler or encoder accepts: the operand ranges of 30_encoding.md R76. Register
numbers are in range by their type. -/

namespace Sys2Proof

/-- A sign-extended 5-bit immediate: -16 to 15 (R76). -/
def fitsSigned5 (v : Int) : Bool := decide (-16 ≤ v) && decide (v ≤ 15)

/-- A zero-extended 5-bit immediate: 0 to 31 (R76). -/
def fitsUnsigned5 (v : Nat) : Bool := decide (v ≤ 31)

/-- A shift or rotate amount: 0 to 15 (R69, R76). -/
def fitsAmount (v : Nat) : Bool := decide (v ≤ 15)

/-- A sign-extended 8-bit immediate: -128 to 127 (R76). -/
def fitsSigned8 (v : Int) : Bool := decide (-128 ≤ v) && decide (v ≤ 127)

/-- A zero-extended 8-bit immediate: 0 to 255 (R76). -/
def fitsUnsigned8 (v : Nat) : Bool := decide (v ≤ 255)

/-- An 11-bit displacement: -1024 to 1023 (R76). -/
def fitsSigned11 (v : Int) : Bool := decide (-1024 ≤ v) && decide (v ≤ 1023)

/-- The operand range of R76, row by row. -/
def Instr.wellFormed : Instr → Bool
  | .halt => true
  | .nop => true
  | .siic _ => true
  | .rti => true
  | .j disp => fitsSigned11 disp
  | .jr _ imm => fitsSigned8 imm
  | .jal disp => fitsSigned11 disp
  | .jalr _ imm => fitsSigned8 imm
  | .addi _ _ imm => fitsSigned5 imm
  | .subi _ _ imm => fitsSigned5 imm
  | .xori _ _ imm => fitsUnsigned5 imm
  | .andni _ _ imm => fitsUnsigned5 imm
  | .beqz _ imm => fitsSigned8 imm
  | .bnez _ imm => fitsSigned8 imm
  | .bltz _ imm => fitsSigned8 imm
  | .bgez _ imm => fitsSigned8 imm
  | .st _ _ imm => fitsSigned5 imm
  | .ld _ _ imm => fitsSigned5 imm
  | .slbi _ imm => fitsUnsigned8 imm
  | .stu _ _ imm => fitsSigned5 imm
  | .roli _ _ amount => fitsAmount amount
  | .slli _ _ amount => fitsAmount amount
  | .rori _ _ amount => fitsAmount amount
  | .srli _ _ amount => fitsAmount amount
  | .lbi _ imm => fitsSigned8 imm
  | .btr _ _ => true
  | .rol _ _ _ => true
  | .sll _ _ _ => true
  | .ror _ _ _ => true
  | .srl _ _ _ => true
  | .add _ _ _ => true
  | .sub _ _ _ => true
  | .xor _ _ _ => true
  | .andn _ _ _ => true
  | .seq _ _ _ => true
  | .slt _ _ _ => true
  | .sle _ _ _ => true
  | .sco _ _ _ => true

end Sys2Proof
end

