-- ==== Sys2Proof/Decode.lean ====
section
/-! DEFINITION. The encoding (30_encoding.md): the formats R62 to R66, the decoder R73, the encoder R78 and the opcode
map R70; and the layout of a word in bytes (20_memory.md R43). -/

namespace Sys2Proof

/-! ## Words and bytes -/

/-- The byte at the lower address: bits 15:8 (R43). -/
def highByte (w : Word) : Byte := w.extractLsb' 8 8

/-- The byte at the higher address: bits 7:0 (R43). -/
def lowByte (w : Word) : Byte := w.extractLsb' 0 8

/-- The word whose high byte is at the lower address (R43: big-endian; PRESUMED, log 9, unsafe). -/
def wordOfBytes (atLower atHigher : Byte) : Word := atLower ++ atHigher

/-! ## Fields -/

/-- `insn[15:11]` (R61). -/
def opcodeField (w : Word) : BitVec 5 := w.extractLsb' 11 5

/-- `insn[1:0]`, the `funct` field of the R-format (R65). -/
def functField (w : Word) : BitVec 2 := w.extractLsb' 0 2

/-- `insn[10:8]` as a register number (R63 to R66). -/
def regField10 (w : Word) : RegNo := (w.extractLsb' 8 3).toFin

/-- `insn[7:5]` as a register number: `rd` of I-format 1 (R63), `rt` of the R-format (R65). -/
def regField7 (w : Word) : RegNo := (w.extractLsb' 5 3).toFin

/-- `insn[4:2]` as a register number: `rd` of the R-format (R65). -/
def regField4 (w : Word) : RegNo := (w.extractLsb' 2 3).toFin

/-- `insn[4:0]` (R63). -/
def imm5Field (w : Word) : BitVec 5 := w.extractLsb' 0 5

/-- `insn[3:0]`, the amount of a shift-immediate; bit 4 is ignored (R69, R71). -/
def amountField (w : Word) : BitVec 4 := w.extractLsb' 0 4

/-- `insn[7:0]` (R64). -/
def imm8Field (w : Word) : BitVec 8 := w.extractLsb' 0 8

/-- `insn[10:0]` (R62). -/
def disp11Field (w : Word) : BitVec 11 := w.extractLsb' 0 11

/-! ## The decoder -/

/-- The decoder of R73, total on words: the 32 opcodes leave none over (R70, R72). -/
def decodeWord (w : Word) : Instr :=
  match opcodeField w with
  | 0b00000#5 => .halt
  | 0b00001#5 => .nop
  | 0b00010#5 => .siic (regField10 w)
  | 0b00011#5 => .rti
  | 0b00100#5 => .j (disp11Field w).toInt
  | 0b00101#5 => .jr (regField10 w) (imm8Field w).toInt
  | 0b00110#5 => .jal (disp11Field w).toInt
  | 0b00111#5 => .jalr (regField10 w) (imm8Field w).toInt
  | 0b01000#5 => .addi (regField7 w) (regField10 w) (imm5Field w).toInt
  | 0b01001#5 => .subi (regField7 w) (regField10 w) (imm5Field w).toInt
  | 0b01010#5 => .xori (regField7 w) (regField10 w) (imm5Field w).toNat
  | 0b01011#5 => .andni (regField7 w) (regField10 w) (imm5Field w).toNat
  | 0b01100#5 => .beqz (regField10 w) (imm8Field w).toInt
  | 0b01101#5 => .bnez (regField10 w) (imm8Field w).toInt
  | 0b01110#5 => .bltz (regField10 w) (imm8Field w).toInt
  | 0b01111#5 => .bgez (regField10 w) (imm8Field w).toInt
  | 0b10000#5 => .st (regField7 w) (regField10 w) (imm5Field w).toInt
  | 0b10001#5 => .ld (regField7 w) (regField10 w) (imm5Field w).toInt
  | 0b10010#5 => .slbi (regField10 w) (imm8Field w).toNat
  | 0b10011#5 => .stu (regField7 w) (regField10 w) (imm5Field w).toInt
  | 0b10100#5 => .roli (regField7 w) (regField10 w) (amountField w).toNat
  | 0b10101#5 => .slli (regField7 w) (regField10 w) (amountField w).toNat
  | 0b10110#5 => .rori (regField7 w) (regField10 w) (amountField w).toNat
  | 0b10111#5 => .srli (regField7 w) (regField10 w) (amountField w).toNat
  | 0b11000#5 => .lbi (regField10 w) (imm8Field w).toInt
  | 0b11001#5 => .btr (regField4 w) (regField10 w)
  | 0b11010#5 =>
    match functField w with
    | 0b00#2 => .rol (regField4 w) (regField10 w) (regField7 w)
    | 0b01#2 => .sll (regField4 w) (regField10 w) (regField7 w)
    | 0b10#2 => .ror (regField4 w) (regField10 w) (regField7 w)
    | _ => .srl (regField4 w) (regField10 w) (regField7 w)          -- 11, the value left
  | 0b11011#5 =>
    match functField w with
    | 0b00#2 => .add (regField4 w) (regField10 w) (regField7 w)
    | 0b01#2 => .sub (regField4 w) (regField10 w) (regField7 w)
    | 0b10#2 => .xor (regField4 w) (regField10 w) (regField7 w)
    | _ => .andn (regField4 w) (regField10 w) (regField7 w)         -- 11, the value left
  | 0b11100#5 => .seq (regField4 w) (regField10 w) (regField7 w)
  | 0b11101#5 => .slt (regField4 w) (regField10 w) (regField7 w)
  | 0b11110#5 => .sle (regField4 w) (regField10 w) (regField7 w)
  | _ => .sco (regField4 w) (regField10 w) (regField7 w)            -- 11111, the value left

/-- Why a list of bytes is no instruction. Every word is one (R72), so the only reason is that there is no word. -/
inductive DecodeError where
  /-- Fewer than the two bytes of an instruction (R60). -/
  | truncated
  deriving DecidableEq, Repr

/-- The first instruction of a list of bytes, in address order, and the bytes after it (R43, R60, R73). -/
def decode : List Byte → Except DecodeError (Instr × List Byte)
  | b0 :: b1 :: rest => .ok (decodeWord (wordOfBytes b0 b1), rest)
  | _ => .error .truncated

/-! ## The encoder -/

/-- A register number as the three bits of a register field (R21). -/
def regBits (r : RegNo) : BitVec 3 := BitVec.ofFin r

/-- S-format of HALT, NOP and RTI: don't-care bits 0 (R66, R78). -/
def wordS (op : BitVec 5) : Word := op ++ 0#11

/-- S-format of `siic` (R66, R78). -/
def wordSiic (op : BitVec 5) (rs : RegNo) : Word := op ++ regBits rs ++ 0#8

/-- J-format (R62, R78). -/
def wordJ (op : BitVec 5) (disp : BitVec 11) : Word := op ++ disp

/-- I-format 1 (R63, R78). -/
def wordI1 (op : BitVec 5) (rs rd : RegNo) (imm : BitVec 5) : Word := op ++ regBits rs ++ regBits rd ++ imm

/-- I-format 2 (R64, R78). -/
def wordI2 (op : BitVec 5) (rs : RegNo) (imm : BitVec 8) : Word := op ++ regBits rs ++ imm

/-- R-format (R65, R78). -/
def wordR (op : BitVec 5) (rs rt rd : RegNo) (funct : BitVec 2) : Word :=
  op ++ regBits rs ++ regBits rt ++ regBits rd ++ funct

/-- The word of R78, each operand contributing its low bits; meant for well-formed instructions, see `encode`. -/
def encodeWord : Instr → Word
  | .halt => wordS 0b00000#5
  | .nop => wordS 0b00001#5
  | .siic rs => wordSiic 0b00010#5 rs
  | .rti => wordS 0b00011#5
  | .j disp => wordJ 0b00100#5 (BitVec.ofInt 11 disp)
  | .jr rs imm => wordI2 0b00101#5 rs (BitVec.ofInt 8 imm)
  | .jal disp => wordJ 0b00110#5 (BitVec.ofInt 11 disp)
  | .jalr rs imm => wordI2 0b00111#5 rs (BitVec.ofInt 8 imm)
  | .addi rd rs imm => wordI1 0b01000#5 rs rd (BitVec.ofInt 5 imm)
  | .subi rd rs imm => wordI1 0b01001#5 rs rd (BitVec.ofInt 5 imm)
  | .xori rd rs imm => wordI1 0b01010#5 rs rd (BitVec.ofNat 5 imm)
  | .andni rd rs imm => wordI1 0b01011#5 rs rd (BitVec.ofNat 5 imm)
  | .beqz rs imm => wordI2 0b01100#5 rs (BitVec.ofInt 8 imm)
  | .bnez rs imm => wordI2 0b01101#5 rs (BitVec.ofInt 8 imm)
  | .bltz rs imm => wordI2 0b01110#5 rs (BitVec.ofInt 8 imm)
  | .bgez rs imm => wordI2 0b01111#5 rs (BitVec.ofInt 8 imm)
  | .st rd rs imm => wordI1 0b10000#5 rs rd (BitVec.ofInt 5 imm)
  | .ld rd rs imm => wordI1 0b10001#5 rs rd (BitVec.ofInt 5 imm)
  | .slbi rs imm => wordI2 0b10010#5 rs (BitVec.ofNat 8 imm)
  | .stu rd rs imm => wordI1 0b10011#5 rs rd (BitVec.ofInt 5 imm)
  | .roli rd rs amount => wordI1 0b10100#5 rs rd (BitVec.ofNat 5 amount)
  | .slli rd rs amount => wordI1 0b10101#5 rs rd (BitVec.ofNat 5 amount)
  | .rori rd rs amount => wordI1 0b10110#5 rs rd (BitVec.ofNat 5 amount)
  | .srli rd rs amount => wordI1 0b10111#5 rs rd (BitVec.ofNat 5 amount)
  | .lbi rs imm => wordI2 0b11000#5 rs (BitVec.ofInt 8 imm)
  | .btr rd rs => wordR 0b11001#5 rs 0 rd 0b00#2
  | .rol rd rs rt => wordR 0b11010#5 rs rt rd 0b00#2
  | .sll rd rs rt => wordR 0b11010#5 rs rt rd 0b01#2
  | .ror rd rs rt => wordR 0b11010#5 rs rt rd 0b10#2
  | .srl rd rs rt => wordR 0b11010#5 rs rt rd 0b11#2
  | .add rd rs rt => wordR 0b11011#5 rs rt rd 0b00#2
  | .sub rd rs rt => wordR 0b11011#5 rs rt rd 0b01#2
  | .xor rd rs rt => wordR 0b11011#5 rs rt rd 0b10#2
  | .andn rd rs rt => wordR 0b11011#5 rs rt rd 0b11#2
  | .seq rd rs rt => wordR 0b11100#5 rs rt rd 0b00#2
  | .slt rd rs rt => wordR 0b11101#5 rs rt rd 0b00#2
  | .sle rd rs rt => wordR 0b11110#5 rs rt rd 0b00#2
  | .sco rd rs rt => wordR 0b11111#5 rs rt rd 0b00#2

/-- The encoder: the word of a well-formed instruction, none for an operand outside its range (R76, D23). -/
def encode (i : Instr) : Option Word := if i.wellFormed then some (encodeWord i) else none

/-- The two bytes of an encoded instruction in address order (R43). -/
def encodeBytes (i : Instr) : Option (List Byte) := (encode i).map fun w => [highByte w, lowByte w]

/-! ## The opcode map -/

/-- A row of the map: a word `w` is the row's instruction iff `w AND mask = pattern` (R70). -/
structure OpcodeRow where
  mnemonic : String
  mask : Word
  pattern : Word
  deriving DecidableEq, Repr

/-- Whether a word is the row's instruction. -/
def OpcodeRow.matchesWord (r : OpcodeRow) (w : Word) : Bool := w &&& r.mask == r.pattern

/-- The map of R70, its columns mnemonic, mask and match. The decoder does not use it: the two are held against each
other by a statement. -/
def opcodeMap : List OpcodeRow :=
  [⟨"HALT", 0xF800, 0x0000⟩, ⟨"NOP", 0xF800, 0x0800⟩, ⟨"siic", 0xF800, 0x1000⟩, ⟨"RTI", 0xF800, 0x1800⟩,
   ⟨"J", 0xF800, 0x2000⟩, ⟨"JR", 0xF800, 0x2800⟩, ⟨"JAL", 0xF800, 0x3000⟩, ⟨"JALR", 0xF800, 0x3800⟩,
   ⟨"ADDI", 0xF800, 0x4000⟩, ⟨"SUBI", 0xF800, 0x4800⟩, ⟨"XORI", 0xF800, 0x5000⟩, ⟨"ANDNI", 0xF800, 0x5800⟩,
   ⟨"BEQZ", 0xF800, 0x6000⟩, ⟨"BNEZ", 0xF800, 0x6800⟩, ⟨"BLTZ", 0xF800, 0x7000⟩, ⟨"BGEZ", 0xF800, 0x7800⟩,
   ⟨"ST", 0xF800, 0x8000⟩, ⟨"LD", 0xF800, 0x8800⟩, ⟨"SLBI", 0xF800, 0x9000⟩, ⟨"STU", 0xF800, 0x9800⟩,
   ⟨"ROLI", 0xF800, 0xA000⟩, ⟨"SLLI", 0xF800, 0xA800⟩, ⟨"RORI", 0xF800, 0xB000⟩, ⟨"SRLI", 0xF800, 0xB800⟩,
   ⟨"LBI", 0xF800, 0xC000⟩, ⟨"BTR", 0xF800, 0xC800⟩,
   ⟨"ROL", 0xF803, 0xD000⟩, ⟨"SLL", 0xF803, 0xD001⟩, ⟨"ROR", 0xF803, 0xD002⟩, ⟨"SRL", 0xF803, 0xD003⟩,
   ⟨"ADD", 0xF803, 0xD800⟩, ⟨"SUB", 0xF803, 0xD801⟩, ⟨"XOR", 0xF803, 0xD802⟩, ⟨"ANDN", 0xF803, 0xD803⟩,
   ⟨"SEQ", 0xF800, 0xE000⟩, ⟨"SLT", 0xF800, 0xE800⟩, ⟨"SLE", 0xF800, 0xF000⟩, ⟨"SCO", 0xF800, 0xF800⟩]

/-- The don't-care bits of R71, row by row: the bits of the word that select nothing. -/
def Instr.dontCare : Instr → Word
  | .halt => 0x07FF#16
  | .nop => 0x07FF#16
  | .siic _ => 0x00FF#16
  | .rti => 0x07FF#16
  | .j _ => 0#16
  | .jr _ _ => 0#16
  | .jal _ => 0#16
  | .jalr _ _ => 0#16
  | .addi _ _ _ => 0#16
  | .subi _ _ _ => 0#16
  | .xori _ _ _ => 0#16
  | .andni _ _ _ => 0#16
  | .beqz _ _ => 0#16
  | .bnez _ _ => 0#16
  | .bltz _ _ => 0#16
  | .bgez _ _ => 0#16
  | .st _ _ _ => 0#16
  | .ld _ _ _ => 0#16
  | .slbi _ _ => 0#16
  | .stu _ _ _ => 0#16
  | .roli _ _ _ => 0x0010#16
  | .slli _ _ _ => 0x0010#16
  | .rori _ _ _ => 0x0010#16
  | .srli _ _ _ => 0x0010#16
  | .lbi _ _ => 0#16
  | .btr _ _ => 0x00E3#16
  | .rol _ _ _ => 0#16
  | .sll _ _ _ => 0#16
  | .ror _ _ _ => 0#16
  | .srl _ _ _ => 0#16
  | .add _ _ _ => 0#16
  | .sub _ _ _ => 0#16
  | .xor _ _ _ => 0#16
  | .andn _ _ _ => 0#16
  | .seq _ _ _ => 0x0003#16
  | .slt _ _ _ => 0x0003#16
  | .sle _ _ _ => 0x0003#16
  | .sco _ _ _ => 0x0003#16

/-! ## The host's question -/

/-- The word whose bits are the low `nbits` bits of `w`, every bit above them 0. -/
def tableWord (nbits w : Nat) : Word := BitVec.ofNat 16 (w % 2 ^ nbits)

/-- The instruction the decoder reads from the bits of `w`, laid out in bytes as R43 stores a word. -/
def decodeTableWord (nbits w : Nat) : Option Instr :=
  match decode [highByte (tableWord nbits w), lowByte (tableWord nbits w)] with
  | .ok (i, _) => some i
  | .error _ => none

end Sys2Proof
end

