-- ==== Sys2Proof/Config.lean ====
section
/-! DEFINITION. The parameters of the machine (00_scope.md R7), which no step changes (10_state.md R36): the ones the
spec gives a value, and the free values of what it leaves open. -/

namespace Sys2Proof

/-- The two readings of STU's second assignment (42_load_store.md R123): the address goes to the data register Rd or
to the base register Rs. -/
inductive StuUpdate where
  | rd
  | rs
  deriving DecidableEq, Repr, Inhabited

/-- `STU_UPDATE_REG`, which the spec leaves OPEN (R7, R123, D11): a free value, so that whatever is proved holds for
both readings (DESIGN CHOICE, log 5, safe). -/
opaque Config.stuUpdateReg : StuUpdate

/-- The draws of `HALT_PC` (R7, R100, D12): for the draw with this number, whether pc is left at the address after the
HALT (`true`) or at the HALT (`false`). Which draw a run has is `RunConfig.haltPcDraw`. A free value (DESIGN CHOICE,
log 4, safe). -/
opaque Config.haltPcAdvances : Nat → Bool

/-- `EXC_SUPPORT` (R7, R182), at the value R7 gives; both values are modelled, see `siicUnder` and `rtiUnder`
(UNVERIFIED, log 6, unsafe). -/
def Config.excSupport : Bool := true

/-- `EXC_VECTOR` (R7, R203), at the value R7 gives (PRESUMED, log 7, unsafe). -/
def Config.excVector : Word := 0x0002#16

/-- `RESET_PC` (R7, R35, R221), at the value R7 gives (PRESUMED, log 8, unsafe). -/
def Config.resetPc : Word := 0x0000#16

end Sys2Proof
end

