-- ==== Sys2Proof/Machine/State.lean ====
section
/-! DEFINITION. The state of the machine (10_state.md R36), how a step can stop (00_scope.md R13), and reset (R35). -/

namespace Sys2Proof.Machine

/-- The bytes of memory that differ from `Memory.unlisted`, by rising address (R33, R41). -/
abbrev Memory := List Host.Cell

/-- A set of byte addresses, by rising address. -/
abbrev AddrSet := List Nat

/-- The complete state of the machine, these six components and no other (R36). -/
structure ArchState where
  /-- `x[0]` to `x[7]` (R20, R21, R22). -/
  regs : Vector Word 8
  /-- The byte address of the instruction to execute (R24, R25). -/
  pc : Word
  /-- The register RTI loads pc from (R31). -/
  epc : Word
  /-- Set by HALT, cleared only by reset (R30). -/
  halted : Bool
  /-- The 65536 bytes of memory (R33, R41, R42). -/
  mem : Memory
  /-- The addresses ST or STU has written since reset, read by the fetch alone (R34). -/
  written : AddrSet
  deriving DecidableEq, Repr

/-- The part of the configuration of R7 that `step` finds in its argument. It is no state, and no step changes it (R36). -/
structure RunConfig where
  /-- The model's own number for the draw of `HALT_PC` (R7) that this run has: `Config.haltPcAdvances` of it is the draw
  (DESIGN CHOICE, log 4, safe). -/
  haltPcDraw : Nat
  deriving DecidableEq, Repr

/-- What a step takes and gives: the complete state of R36, and the configuration it runs under. -/
structure State extends ArchState, RunConfig where
  deriving DecidableEq, Repr

/-- The stops of R13, and the step a halted machine does not have. None is an architectural exception (R210). -/
inductive Fault where
  /-- Raised by LD, ST and STU at an odd effective address, before anything changes (R47). Safe: the hardware may go on. -/
  | misalignedData (addr : Word)
  /-- Raised by the fetch at an odd pc (R48). Safe: the hardware may go on. -/
  | misalignedFetch (pc : Word)
  /-- Raised by the fetch of a byte that ST or STU has written (R46, R49). Safe: the hardware fetches the old or the
  new byte. -/
  | staleFetch (pc : Word)
  /-- Raised by the step of a halted machine, which has none (R30, R226): the end of a run and no error. Safe. -/
  | halted
  deriving DecidableEq, Repr

/-- Instructions that the model does not execute. -/
inductive Refusal where
  /-- Raised by `exec` for an instruction that has no meaning yet; none is left. Safe. -/
  | notModelled (mnemonic : String)
  /-- Raised by `siic` on a machine without exception support (R182). Safe: the spec gives it no behaviour there. -/
  | unsupported (mnemonic : String)
  deriving DecidableEq, Repr

/-- The outcome of a step or of an instruction. -/
abbrev Result := Host.Outcome State Fault Refusal

/-- Reset (R35, R220), with everything that R7 and R35 leave to the host or to a draw as an argument: the image in memory,
the general registers, epc and the run's draw of `HALT_PC`. -/
def State.resetWith (image : Memory) (x : Vector Word 8) (epc : Word) (haltPcDraw : Nat) : State where
  regs := x
  pc := Config.resetPc
  epc := epc
  halted := false
  mem := image
  written := []
  haltPcDraw := haltPcDraw

/-- The machine right after reset with the values the log names for what R35 leaves open: no byte listed in memory
(log 3), general registers and epc zero (DESIGN CHOICE, log 1 and 2, unsafe), the draw of `HALT_PC` with number 0 (log 4). -/
def State.reset : State := State.resetWith [] (Vector.replicate 8 0x0000#16) 0x0000#16 0

end Sys2Proof.Machine
end

