-- ==== Sys2Proof/Machine/Ops.lean ====
section
/-! DEFINITION. The named operations: memory and address sets, registers, the access primitives R44 to R46, taking the
exception and returning from it (60_exceptions.md R203, R204), and stopping (R100). -/

namespace Sys2Proof.Machine

/-! ## Memory: one canonical form for each content -/

/-- What an address that is not listed reads as. The spec leaves the bytes of `IMAGE` to the host (R35, D18); the model
lists those that are not this one (DESIGN CHOICE, log 3, unsafe). -/
def Memory.unlisted : Byte := 0x00#8

/-- The byte at an address (R41). -/
def Memory.read : Memory → Nat → Byte
  | [], _ => Memory.unlisted
  | (b, u) :: m, a => if a = b then u else Memory.read m a

/-- List `v` at `a`, keeping the addresses rising. -/
def Memory.insert : Memory → Nat → Byte → Memory
  | [], a, v => [(a, v)]
  | (b, u) :: m, a, v =>
    if a < b then (a, v) :: (b, u) :: m
    else if a = b then (a, v) :: m
    else (b, u) :: Memory.insert m a v

/-- List nothing at `a`. -/
def Memory.erase (m : Memory) (a : Nat) : Memory := m.filter fun c => c.1 != a

/-- Make `v` the byte at `a`: listed unless it is what an unlisted address reads as. -/
def Memory.write (m : Memory) (a : Nat) (v : Byte) : Memory :=
  if v = Memory.unlisted then m.erase a else m.insert a v

/-- Canonical from `lo` up: addresses strictly rising from `lo`, below 65536 (R33), no entry that reads as unlisted. -/
def Memory.wfFrom : Nat → Memory → Bool
  | _, [] => true
  | lo, (a, v) :: m => decide (lo ≤ a) && decide (a < 65536) && v != Memory.unlisted && Memory.wfFrom (a + 1) m

/-- The canonical form of memory: equal contents are equal lists. -/
def Memory.wf (m : Memory) : Bool := Memory.wfFrom 0 m

/-- Add an address, keeping the set rising and without repeats. -/
def AddrSet.insert : AddrSet → Nat → AddrSet
  | [], a => [a]
  | b :: l, a => if a < b then a :: b :: l else if a = b then b :: l else b :: AddrSet.insert l a

/-- Canonical from `lo` up: addresses strictly rising from `lo`, below 65536. -/
def AddrSet.wfFrom : Nat → AddrSet → Bool
  | _, [] => true
  | lo, a :: l => decide (lo ≤ a) && decide (a < 65536) && AddrSet.wfFrom (a + 1) l

/-- The canonical form of an address set: equal sets are equal lists. -/
def AddrSet.wf (l : AddrSet) : Bool := AddrSet.wfFrom 0 l

/-! ## Registers and pc -/

/-- `x[r]` (R11). -/
def State.reg (s : State) (r : RegNo) : Word := s.regs[r]

/-- `x[r] <- v` (R11); no register is hardwired (R22). -/
def State.setReg (s : State) (r : RegNo) (v : Word) : State := { s with regs := s.regs.set r v }

/-- `pc <- t` (R11). -/
def State.goto (s : State) (t : Word) : State := { s with pc := t }

/-- The address of the next sequential instruction, modulo 2^16 (R25, R28); also the link value (R170). -/
def State.nextPc (s : State) : Word := s.pc + 2#16

/-- The default of R27: `pc <- pc + 2`. -/
def State.advance (s : State) : State := s.goto s.nextPc

/-- Write one register and go on: the shape of every computing instruction (R27). -/
def writeReg (rd : RegNo) (v : Word) (s : State) : Result := .next (s.setReg rd v).advance

/-! ## Memory access (R44 to R46) -/

/-- Whether bit 0 of an address is set (R44, R45, R48). -/
def isOdd (a : Word) : Bool := a.getLsbD 0

/-- `mem[a]` (R41). -/
def State.byte (s : State) (a : Word) : Byte := s.mem.read a.toNat

/-- The word at `a`: `mem[a] ‖ mem[a + 1]` (R43, R44). -/
def State.word (s : State) (a : Word) : Word := wordOfBytes (s.byte a) (s.byte (a + 1#16))

/-- Both bytes of a store at once, and their addresses into `written` (R45). -/
def State.storeWord (s : State) (a v : Word) : State :=
  { s with
    mem := (s.mem.write a.toNat (highByte v)).write (a + 1#16).toNat (lowByte v)
    written := (s.written.insert a.toNat).insert (a + 1#16).toNat }

/-- `MemRead(a, 2)` (R44). -/
def memRead (s : State) (a : Word) : Except Fault Word :=
  if isOdd a then .error (.misalignedData a) else .ok (s.word a)

/-- `MemWrite(a, 2, v)` (R45). -/
def memWrite (s : State) (a v : Word) : Except Fault State :=
  if isOdd a then .error (.misalignedData a) else .ok (s.storeWord a v)

/-- Whether a store since reset has written the address (R34). -/
def State.isWritten (s : State) (a : Word) : Bool := decide (a.toNat ∈ s.written)

/-- The fetch of the step at pc: alignment first, then `Fetch(pc)` (R27, R46, R48, R207). -/
def fetch (s : State) : Except Fault Word :=
  if isOdd s.pc then .error (.misalignedFetch s.pc)
  else if s.isWritten s.pc || s.isWritten (s.pc + 1#16) then .error (.staleFetch s.pc)
  else .ok (s.word s.pc)

/-! ## The exception and the halt -/

/-- Taking IllegalOp: `epc <- pc + 2 ; pc <- EXC_VECTOR`, nothing else (R203). -/
def State.takeIllegalOp (s : State) : State := { s with epc := s.nextPc, pc := Config.excVector }

/-- Returning from it: `pc <- epc`, nothing else (R204). -/
def State.returnFromException (s : State) : State := s.goto s.epc

/-- The pc of the halted state: the run's draw of {pc, pc + 2} (R100, D12, log 4). -/
def State.haltPc (s : State) : Word := if Config.haltPcAdvances s.haltPcDraw then s.nextPc else s.pc

/-- Entering the halted state (R30, R100). -/
def State.halt (s : State) : State := { s with halted := true, pc := s.haltPc }

end Sys2Proof.Machine
end

