-- ==== Sys2Proof/Machine/Operands.lean ====
section
/-! DEFINITION. Operand values: extended immediates (30_encoding.md R67), the one addressing mode (42_load_store.md
R120), branch and jump targets (R150, R170), shift amounts (R69), and the shift, rotate and reversal functions (R110, R131). -/

namespace Sys2Proof.Machine

/-- `sext_16` of a sign-extended immediate (R10, R67): its two's-complement word. -/
def signedImm (v : Int) : Word := BitVec.ofInt 16 v

/-- `zext_16` of a zero-extended immediate (R10, R67). -/
def unsignedImm (v : Nat) : Word := BitVec.ofNat 16 v

/-- `ea = x[rs] + sext_16(imm5)`, carry dropped (R58, R120). -/
def effectiveAddress (s : State) (rs : RegNo) (imm : Int) : Word := s.reg rs + signedImm imm

/-- `pc + 2 + sext_16(imm)`, modulo 2^16, not scaled (R28, R68, R150, R171). -/
def relativeTarget (s : State) (imm : Int) : Word := s.nextPc + signedImm imm

/-- `x[rs] + sext_16(imm8)`, modulo 2^16 (R172, R174). -/
def registerTarget (s : State) (rs : RegNo) (imm : Int) : Word := s.reg rs + signedImm imm

/-- `v[3:0]`, the amount of a register shift (R69). -/
def shiftAmount (v : Word) : Nat := (v.extractLsb' 0 4).toNat

/-- Logical shift left: zeros enter at bit 0 (R110). -/
def sll16 (v : Word) (n : Nat) : Word := v <<< n

/-- Logical shift right: zeros enter at bit 15 (R110). -/
def srl16 (v : Word) (n : Nat) : Word := v >>> n

/-- Rotate left, for amounts 0 to 15 (R110). -/
def rol16 (v : Word) (n : Nat) : Word := if n = 0 then v else sll16 v n ||| srl16 v (16 - n)

/-- Rotate right, for amounts 0 to 15 (R110). -/
def ror16 (v : Word) (n : Nat) : Word := if n = 0 then v else srl16 v n ||| sll16 v (16 - n)

/-- All sixteen bits in the opposite order (R131). -/
def reverse16 (v : Word) : Word := v.reverse

end Sys2Proof.Machine
end

