-- ==== Sys2Proof/Machine/AluImmediate.lean ====
section
/-! DEFINITION. The I-format 1 arithmetic, logical, shift and rotate instructions (41_alu_immediate.md). -/

namespace Sys2Proof.Machine

/-- ADDI (R111). -/
def execAddi (rd rs : RegNo) (imm : Int) (s : State) : Result := writeReg rd (s.reg rs + signedImm imm) s

/-- SUBI (R112): the register is subtracted from the immediate. -/
def execSubi (rd rs : RegNo) (imm : Int) (s : State) : Result := writeReg rd (signedImm imm - s.reg rs) s

/-- XORI (R113). -/
def execXori (rd rs : RegNo) (imm : Nat) (s : State) : Result := writeReg rd (s.reg rs ^^^ unsignedImm imm) s

/-- ANDNI (R114): the complement is taken after the zero extension. -/
def execAndni (rd rs : RegNo) (imm : Nat) (s : State) : Result := writeReg rd (s.reg rs &&& ~~~unsignedImm imm) s

/-- ROLI (R115). -/
def execRoli (rd rs : RegNo) (amount : Nat) (s : State) : Result := writeReg rd (rol16 (s.reg rs) amount) s

/-- SLLI (R116). -/
def execSlli (rd rs : RegNo) (amount : Nat) (s : State) : Result := writeReg rd (sll16 (s.reg rs) amount) s

/-- RORI (R117). -/
def execRori (rd rs : RegNo) (amount : Nat) (s : State) : Result := writeReg rd (ror16 (s.reg rs) amount) s

/-- SRLI (R118). -/
def execSrli (rd rs : RegNo) (amount : Nat) (s : State) : Result := writeReg rd (srl16 (s.reg rs) amount) s

end Sys2Proof.Machine
end

