-- ==== Sys2Proof/Machine/AluRegister.lean ====
section
/-! DEFINITION. The R-format arithmetic, logical, shift, rotate and bit-reverse instructions (43_alu_register.md). -/

namespace Sys2Proof.Machine

/-- BTR (R131). -/
def execBtr (rd rs : RegNo) (s : State) : Result := writeReg rd (reverse16 (s.reg rs)) s

/-- ADD (R132). -/
def execAdd (rd rs rt : RegNo) (s : State) : Result := writeReg rd (s.reg rs + s.reg rt) s

/-- SUB (R133): the first source is subtracted from the second. -/
def execSub (rd rs rt : RegNo) (s : State) : Result := writeReg rd (s.reg rt - s.reg rs) s

/-- XOR (R134). -/
def execXor (rd rs rt : RegNo) (s : State) : Result := writeReg rd (s.reg rs ^^^ s.reg rt) s

/-- ANDN (R135): the second source is complemented. -/
def execAndn (rd rs rt : RegNo) (s : State) : Result := writeReg rd (s.reg rs &&& ~~~s.reg rt) s

/-- ROL (R136). -/
def execRol (rd rs rt : RegNo) (s : State) : Result := writeReg rd (rol16 (s.reg rs) (shiftAmount (s.reg rt))) s

/-- SLL (R137). -/
def execSll (rd rs rt : RegNo) (s : State) : Result := writeReg rd (sll16 (s.reg rs) (shiftAmount (s.reg rt))) s

/-- ROR (R138). -/
def execRor (rd rs rt : RegNo) (s : State) : Result := writeReg rd (ror16 (s.reg rs) (shiftAmount (s.reg rt))) s

/-- SRL (R139). -/
def execSrl (rd rs rt : RegNo) (s : State) : Result := writeReg rd (srl16 (s.reg rs) (shiftAmount (s.reg rt))) s

end Sys2Proof.Machine
end

