-- ==== Sys2Proof/Machine/Flags.lean ====
section
/-! DEFINITION. This hardware has no status flag (10_state.md R29): the conditions that other machines keep in flags are
computed where an instruction asks for them, by the set instructions (44_set.md) and the branches (45_branch.md). -/

namespace Sys2Proof.Machine

/-- The result of a set instruction: all sixteen bits written, 0x0001 or 0x0000 (R140). -/
def setWord (holds : Bool) : Word := if holds then 0x0001#16 else 0x0000#16

/-- Equality of all sixteen bits (R141). -/
def isEqual (a b : Word) : Bool := a == b

/-- The exact comparison of the two's-complement integers (R9, R142). -/
def isLess (a b : Word) : Bool := decide (a.toInt < b.toInt)

/-- The exact comparison of the two's-complement integers (R9, R143). -/
def isAtMost (a b : Word) : Bool := decide (a.toInt ≤ b.toInt)

/-- The carry out of bit 15 of the unsigned sum, without carry in (R144). -/
def carriesOut (a b : Word) : Bool := decide (65536 ≤ a.toNat + b.toNat)

/-- `v = 0x0000` (R151). -/
def isZero (v : Word) : Bool := v == 0x0000#16

/-- `v[15] = 1` (R153). -/
def isNegative (v : Word) : Bool := v.getLsbD 15

end Sys2Proof.Machine
end

