-- ==== Sys2Proof/Machine/Branch.lean ====
section
/-! DEFINITION. The conditional branches (45_branch.md). -/

namespace Sys2Proof.Machine

/-- Taken to `pc + 2 + sext_16(imm8)`, not taken to `pc + 2` (R150). -/
def branchIf (taken : Bool) (imm : Int) (s : State) : Result :=
  .next (s.goto (if taken then relativeTarget s imm else s.nextPc))

/-- BEQZ (R151). -/
def execBeqz (rs : RegNo) (imm : Int) (s : State) : Result := branchIf (isZero (s.reg rs)) imm s

/-- BNEZ (R152). -/
def execBnez (rs : RegNo) (imm : Int) (s : State) : Result := branchIf (!isZero (s.reg rs)) imm s

/-- BLTZ (R153). -/
def execBltz (rs : RegNo) (imm : Int) (s : State) : Result := branchIf (isNegative (s.reg rs)) imm s

/-- BGEZ (R154). -/
def execBgez (rs : RegNo) (imm : Int) (s : State) : Result := branchIf (!isNegative (s.reg rs)) imm s

end Sys2Proof.Machine
end

