-- ==== Sys2Proof/Machine/Jump.lean ====
section
/-! DEFINITION. The jumps (47_jump.md). -/

namespace Sys2Proof.Machine

/-- R7, the link register of JAL and JALR (R22, R170). -/
def linkReg : RegNo := 7

/-- Write `pc + 2` to R7 and go to a target computed before the write (R12, R173, R174). -/
def linkAndGoto (target : Word) (s : State) : Result := .next ((s.setReg linkReg s.nextPc).goto target)

/-- J (R171). -/
def execJ (disp : Int) (s : State) : Result := .next (s.goto (relativeTarget s disp))

/-- JR (R172). -/
def execJr (rs : RegNo) (imm : Int) (s : State) : Result := .next (s.goto (registerTarget s rs imm))

/-- JAL (R173). -/
def execJal (disp : Int) (s : State) : Result := linkAndGoto (relativeTarget s disp) s

/-- JALR (R174): the target is computed from the old R7 when Rs is R7. -/
def execJalr (rs : RegNo) (imm : Int) (s : State) : Result := linkAndGoto (registerTarget s rs imm) s

end Sys2Proof.Machine
end

