-- ==== Sys2Proof/Machine/LoadImmediate.lean ====
section
/-! DEFINITION. The load-immediate instructions (46_load_immediate.md): the register field names the destination. -/

namespace Sys2Proof.Machine

/-- LBI (R160). -/
def execLbi (rs : RegNo) (imm : Int) (s : State) : Result := writeReg rs (signedImm imm) s

/-- SLBI (R161): OR of the shifted register and the zero-extended immediate. -/
def execSlbi (rs : RegNo) (imm : Nat) (s : State) : Result := writeReg rs (sll16 (s.reg rs) 8 ||| unsignedImm imm) s

end Sys2Proof.Machine
end

