-- ==== Sys2Proof/Machine/LoadStore.lean ====
section
/-! DEFINITION. The load and store instructions (42_load_store.md). -/

namespace Sys2Proof.Machine

/-- ST (R121). -/
def execSt (rd rs : RegNo) (imm : Int) (s : State) : Result :=
  match memWrite s (effectiveAddress s rs imm) (s.reg rd) with
  | .ok s' => .next s'.advance
  | .error f => .fault f

/-- LD (R122). -/
def execLd (rd rs : RegNo) (imm : Int) (s : State) : Result :=
  match memRead s (effectiveAddress s rs imm) with
  | .ok v => writeReg rd v s
  | .error f => .fault f

/-- The register that receives STU's address under a value of `STU_UPDATE_REG` (R123). -/
def stuTarget (u : StuUpdate) (rd rs : RegNo) : RegNo :=
  match u with
  | .rd => rd
  | .rs => rs

/-- STU under either value of `STU_UPDATE_REG`: both sources are read before any write (R12, R123). -/
def stuUnder (u : StuUpdate) (rd rs : RegNo) (imm : Int) (s : State) : Result :=
  match memWrite s (effectiveAddress s rs imm) (s.reg rd) with
  | .ok s' => writeReg (stuTarget u rd rs) (effectiveAddress s rs imm) s'
  | .error f => .fault f

/-- STU (R123); which register is updated is left open (log 5). -/
def execStu (rd rs : RegNo) (imm : Int) (s : State) : Result := stuUnder Config.stuUpdateReg rd rs imm s

end Sys2Proof.Machine
end

