-- ==== Sys2Proof/Machine/SetCondition.lean ====
section
/-! DEFINITION. The set instructions (44_set.md). -/

namespace Sys2Proof.Machine

/-- SEQ (R141). -/
def execSeq (rd rs rt : RegNo) (s : State) : Result := writeReg rd (setWord (isEqual (s.reg rs) (s.reg rt))) s

/-- SLT (R142). -/
def execSlt (rd rs rt : RegNo) (s : State) : Result := writeReg rd (setWord (isLess (s.reg rs) (s.reg rt))) s

/-- SLE (R143). -/
def execSle (rd rs rt : RegNo) (s : State) : Result := writeReg rd (setWord (isAtMost (s.reg rs) (s.reg rt))) s

/-- SCO (R144). -/
def execSco (rd rs rt : RegNo) (s : State) : Result := writeReg rd (setWord (carriesOut (s.reg rs) (s.reg rt))) s

end Sys2Proof.Machine
end

