-- ==== Sys2Proof/Machine/System.lean ====
section
/-! DEFINITION. HALT and NOP (40_halt_nop.md), siic and RTI (48_exception_instructions.md). -/

namespace Sys2Proof.Machine

/-- HALT (R100). What the host then observes is `State.dump`. -/
def execHalt (s : State) : Result := .next s.halt

/-- NOP (R101). -/
def execNop (s : State) : Result := .next s.advance

/-- `siic` under either value of `EXC_SUPPORT` (R180, R182). -/
def siicUnder (support : Bool) (s : State) : Result :=
  if support then .next s.takeIllegalOp else .refused (.unsupported "siic")

/-- siic (R180): the register it names is not read. -/
def execSiic (_rs : RegNo) (s : State) : Result := siicUnder Config.excSupport s

/-- RTI under either value of `EXC_SUPPORT`: without support it is NOP (R181, R182). -/
def rtiUnder (support : Bool) (s : State) : Result :=
  if support then .next s.returnFromException else .next s.advance

/-- RTI (R181). -/
def execRti (s : State) : Result := rtiUnder Config.excSupport s

end Sys2Proof.Machine
end

