-- ==== Sys2Proof/Machine/Step.lean ====
section
/-! DEFINITION. One step (10_state.md R27), and the placing of an instruction where the next step fetches it. -/

namespace Sys2Proof.Machine

/-- The step of R27. A halted machine has none (R30): the fault `halted`, a stuck state (DESIGN CHOICE, log 10, safe). -/
def step (s : State) : Host.Outcome State Fault Refusal :=
  if s.halted then .fault .halted
  else
    match fetch s with
    | .error f => .fault f
    | .ok w => exec (decodeWord w) s

/-- The state with the instruction whose bits are the low `nbits` bits of `w` at its pc, as the host's load of `IMAGE`
before reset would have put it there (R227, log 11): a running machine, an even pc, the two bytes stored, high byte
first, and not among the bytes a store has written. Nothing else changes. -/
def State.withFetchWord (s : State) (nbits w : Nat) : State :=
  let a : Word := s.pc &&& 0xFFFE#16
  let insn : Word := tableWord nbits w
  { s with
    pc := a
    halted := false
    mem := (s.mem.write a.toNat (highByte insn)).write (a + 1#16).toNat (lowByte insn)
    written := s.written.filter fun b => b != a.toNat && b != (a + 1#16).toNat }

end Sys2Proof.Machine
end

