-- ==== Sys2Proof/Safety.lean ====
section
/-! DEFINITION. The terms in which the statements speak of the machine: what a next state may differ in, which registers
an instruction reads and writes (10_state.md R23), where it goes (R27), what a run stores (20_memory.md R54), the two
memory arrangements of R49, and the invariant. -/

namespace Sys2Proof.Machine

/-! ## Frames -/

/-- `t` is `s` but for one general register and pc: every other register, epc, the halted bit, the set of written
addresses, the run's draw and every byte of memory are as before. -/
structure WritesReg (s t : State) (rd : RegNo) (v p : Word) : Prop where
  value : t.reg rd = v
  others : ∀ q : RegNo, q ≠ rd → t.reg q = s.reg q
  pc : t.pc = p
  epc : t.epc = s.epc
  halted : t.halted = s.halted
  written : t.written = s.written
  haltPcDraw : t.haltPcDraw = s.haltPcDraw
  bytes : ∀ a : Word, t.byte a = s.byte a

/-- `t` is `s` but for pc. -/
structure GoesTo (s t : State) (p : Word) : Prop where
  regs : ∀ q : RegNo, t.reg q = s.reg q
  pc : t.pc = p
  epc : t.epc = s.epc
  halted : t.halted = s.halted
  written : t.written = s.written
  haltPcDraw : t.haltPcDraw = s.haltPcDraw
  bytes : ∀ a : Word, t.byte a = s.byte a

/-- A store of `v` at `ea` (R43, R45): the high byte at `ea`, the low byte at `ea + 1`, every other byte as before, and
exactly these two addresses added to `written`; pc, epc, the halted bit and the run's draw as for a computing
instruction. The general registers are left to the statement. -/
structure StoresAt (s t : State) (ea v p : Word) : Prop where
  high : t.byte ea = v.extractLsb' 8 8
  low : t.byte (ea + 1#16) = v.extractLsb' 0 8
  others : ∀ a : Word, a ≠ ea → a ≠ ea + 1#16 → t.byte a = s.byte a
  written : ∀ a : Word, t.isWritten a = (s.isWritten a || a == ea || a == ea + 1#16)
  pc : t.pc = p
  epc : t.epc = s.epc
  halted : t.halted = s.halted
  haltPcDraw : t.haltPcDraw = s.haltPcDraw

/-! ## The read and write roles of R23 -/

/-- The general registers whose value an instruction uses (R23). -/
def instrReads : Instr → List RegNo
  | .halt => []
  | .nop => []
  | .siic _ => []
  | .rti => []
  | .j _ => []
  | .jr rs _ => [rs]
  | .jal _ => []
  | .jalr rs _ => [rs]
  | .addi _ rs _ => [rs]
  | .subi _ rs _ => [rs]
  | .xori _ rs _ => [rs]
  | .andni _ rs _ => [rs]
  | .beqz rs _ => [rs]
  | .bnez rs _ => [rs]
  | .bltz rs _ => [rs]
  | .bgez rs _ => [rs]
  | .st rd rs _ => [rs, rd]
  | .ld _ rs _ => [rs]
  | .slbi rs _ => [rs]
  | .stu rd rs _ => [rs, rd]
  | .roli _ rs _ => [rs]
  | .slli _ rs _ => [rs]
  | .rori _ rs _ => [rs]
  | .srli _ rs _ => [rs]
  | .lbi _ _ => []
  | .btr _ rs => [rs]
  | .rol _ rs rt => [rs, rt]
  | .sll _ rs rt => [rs, rt]
  | .ror _ rs rt => [rs, rt]
  | .srl _ rs rt => [rs, rt]
  | .add _ rs rt => [rs, rt]
  | .sub _ rs rt => [rs, rt]
  | .xor _ rs rt => [rs, rt]
  | .andn _ rs rt => [rs, rt]
  | .seq _ rs rt => [rs, rt]
  | .slt _ rs rt => [rs, rt]
  | .sle _ rs rt => [rs, rt]
  | .sco _ rs rt => [rs, rt]

/-- The general registers an instruction writes (R23); for STU the one that `STU_UPDATE_REG` names (R123). -/
def instrWrites : Instr → List RegNo
  | .halt => []
  | .nop => []
  | .siic _ => []
  | .rti => []
  | .j _ => []
  | .jr _ _ => []
  | .jal _ => [linkReg]
  | .jalr _ _ => [linkReg]
  | .addi rd _ _ => [rd]
  | .subi rd _ _ => [rd]
  | .xori rd _ _ => [rd]
  | .andni rd _ _ => [rd]
  | .beqz _ _ => []
  | .bnez _ _ => []
  | .bltz _ _ => []
  | .bgez _ _ => []
  | .st _ _ _ => []
  | .ld rd _ _ => [rd]
  | .slbi rs _ => [rs]
  | .stu rd rs _ => [stuTarget Config.stuUpdateReg rd rs]
  | .roli rd _ _ => [rd]
  | .slli rd _ _ => [rd]
  | .rori rd _ _ => [rd]
  | .srli rd _ _ => [rd]
  | .lbi rs _ => [rs]
  | .btr rd _ => [rd]
  | .rol rd _ _ => [rd]
  | .sll rd _ _ => [rd]
  | .ror rd _ _ => [rd]
  | .srl rd _ _ => [rd]
  | .add rd _ _ => [rd]
  | .sub rd _ _ => [rd]
  | .xor rd _ _ => [rd]
  | .andn rd _ _ => [rd]
  | .seq rd _ _ => [rd]
  | .slt rd _ _ => [rd]
  | .sle rd _ _ => [rd]
  | .sco rd _ _ => [rd]

/-! ## The next pc of R27 -/

/-- The values R27 allows pc to have after an instruction: one, but for the two of HALT's draw (R100). -/
def instrNextPcs (i : Instr) (s : State) : List Word :=
  match i with
  | .halt => [s.pc, s.nextPc]
  | .nop => [s.nextPc]
  | .siic _ => [Config.excVector]
  | .rti => [s.epc]
  | .j disp => [s.nextPc + signedImm disp]
  | .jr rs imm => [s.reg rs + signedImm imm]
  | .jal disp => [s.nextPc + signedImm disp]
  | .jalr rs imm => [s.reg rs + signedImm imm]
  | .addi _ _ _ => [s.nextPc]
  | .subi _ _ _ => [s.nextPc]
  | .xori _ _ _ => [s.nextPc]
  | .andni _ _ _ => [s.nextPc]
  | .beqz rs imm => [if s.reg rs = 0x0000#16 then s.nextPc + signedImm imm else s.nextPc]
  | .bnez rs imm => [if s.reg rs ≠ 0x0000#16 then s.nextPc + signedImm imm else s.nextPc]
  | .bltz rs imm => [if (s.reg rs).toInt < 0 then s.nextPc + signedImm imm else s.nextPc]
  | .bgez rs imm => [if 0 ≤ (s.reg rs).toInt then s.nextPc + signedImm imm else s.nextPc]
  | .st _ _ _ => [s.nextPc]
  | .ld _ _ _ => [s.nextPc]
  | .slbi _ _ => [s.nextPc]
  | .stu _ _ _ => [s.nextPc]
  | .roli _ _ _ => [s.nextPc]
  | .slli _ _ _ => [s.nextPc]
  | .rori _ _ _ => [s.nextPc]
  | .srli _ _ _ => [s.nextPc]
  | .lbi _ _ => [s.nextPc]
  | .btr _ _ => [s.nextPc]
  | .rol _ _ _ => [s.nextPc]
  | .sll _ _ _ => [s.nextPc]
  | .ror _ _ _ => [s.nextPc]
  | .srl _ _ _ => [s.nextPc]
  | .add _ _ _ => [s.nextPc]
  | .sub _ _ _ => [s.nextPc]
  | .xor _ _ _ => [s.nextPc]
  | .andn _ _ _ => [s.nextPc]
  | .seq _ _ _ => [s.nextPc]
  | .slt _ _ _ => [s.nextPc]
  | .sle _ _ _ => [s.nextPc]
  | .sco _ _ _ => [s.nextPc]

/-! ## The stores of a run -/

/-- The store of a word at an aligned address; nothing at an odd one (R45, R47). -/
def alignedStore (ea v : Word) : List (Word × Word) := if isOdd ea then [] else [(ea, v)]

/-- The stores an instruction makes: address and word. -/
def instrStores (i : Instr) (s : State) : List (Word × Word) :=
  match i with
  | .halt => []
  | .nop => []
  | .siic _ => []
  | .rti => []
  | .j _ => []
  | .jr _ _ => []
  | .jal _ => []
  | .jalr _ _ => []
  | .addi _ _ _ => []
  | .subi _ _ _ => []
  | .xori _ _ _ => []
  | .andni _ _ _ => []
  | .beqz _ _ => []
  | .bnez _ _ => []
  | .bltz _ _ => []
  | .bgez _ _ => []
  | .st rd rs imm => alignedStore (effectiveAddress s rs imm) (s.reg rd)
  | .ld _ _ _ => []
  | .slbi _ _ => []
  | .stu rd rs imm => alignedStore (effectiveAddress s rs imm) (s.reg rd)
  | .roli _ _ _ => []
  | .slli _ _ _ => []
  | .rori _ _ _ => []
  | .srli _ _ _ => []
  | .lbi _ _ => []
  | .btr _ _ => []
  | .rol _ _ _ => []
  | .sll _ _ _ => []
  | .ror _ _ _ => []
  | .srl _ _ _ => []
  | .add _ _ _ => []
  | .sub _ _ _ => []
  | .xor _ _ _ => []
  | .andn _ _ _ => []
  | .seq _ _ _ => []
  | .slt _ _ _ => []
  | .sle _ _ _ => []
  | .sco _ _ _ => []

/-- The stores of the step from `s`. -/
def storesOfStep (s : State) : List (Word × Word) :=
  match fetch s with
  | .ok w => instrStores (decodeWord w) s
  | .error _ => []

/-- The stores of `k` steps from `s`, oldest first. -/
def storesOfRun : Nat → State → List (Word × Word)
  | 0, _ => []
  | k + 1, s =>
    match step s with
    | .next t => storesOfStep s ++ storesOfRun k t
    | .fault _ => []
    | .refused _ => []

/-- The byte at `a` after a list of stores, oldest first, if it was `b` before: the last store to it, or `b` (R54). -/
def lastStored : List (Word × Word) → Word → Byte → Byte
  | [], _, b => b
  | (ea, v) :: l, a, b =>
    lastStored l a (if a = ea then v.extractLsb' 8 8 else if a = ea + 1#16 then v.extractLsb' 0 8 else b)

/-! ## The two memory arrangements of R49 -/

/-- A step of a machine that fetches from `insnByte` and knows no stale fetch. -/
def stepFetchingFrom (insnByte : State → Word → Byte) (s : State) : Result :=
  if s.halted then .fault .halted
  else if isOdd s.pc then .fault (.misalignedFetch s.pc)
  else exec (decodeWord (wordOfBytes (insnByte s s.pc) (insnByte s (s.pc + 1#16)))) s

/-- `k` steps of it. -/
def runFetchingFrom (insnByte : State → Word → Byte) : Nat → State → Result
  | 0, s => .next s
  | k + 1, s =>
    match stepFetchingFrom insnByte s with
    | .next t => runFetchingFrom insnByte k t
    | .fault f => .fault f
    | .refused r => .refused r

/-! ## Outcomes, the dump, the invariant -/

/-- Change the next state of an outcome. -/
def mapNext (f : State → State) : Result → Result
  | .next t => .next (f t)
  | .fault r => .fault r
  | .refused r => .refused r

/-- What the host observes of a halted machine: its memory (R100, R227). -/
def State.dump (s : State) : Option Memory := if s.halted then some s.mem else none

/-- What every step keeps: memory and the set of written addresses in their canonical form, so that both lie within the
65536 addresses (R33, R34), and an even epc, since a `siic` that is fetched stands at an even pc (R181). -/
structure State.Inv (s : State) : Prop where
  mem : s.mem.wf = true
  written : AddrSet.wf s.written = true
  epc : isOdd s.epc = false

end Sys2Proof.Machine
end

