-- ==== Sys2Proof/Certificates/Slice0/Obligations.lean ====
section
/-! DEFINITION. The statements for the provers. Each instruction's statement gives its encoding (with every don't-care
bit free), that it goes on, and the whole next state: the result and the frame (WritesReg, GoesTo, StoresAt). Fields are
spelt from the word: `++` is the spec's `‖`. -/

open Sys2Proof Sys2Proof.Machine

/-! ## Encoding -/

/-- Decode and encode agree (30_encoding.md sections 4 and 5, the encoder as inverse of the decoder): a well-formed
instruction has a word and two bytes, high byte first, and both decode to it, whatever bytes follow. -/
def Obligations.DecodeInvertsEncode : Prop :=
  ∀ i : Instr, i.wellFormed = true →
    ∃ w, encode i = some w ∧ decodeWord w = i ∧
      ∃ bs, encodeBytes i = some bs ∧ bs.length = 2 ∧ ∀ rest, decode (bs ++ rest) = .ok (i, rest)

/-- The range rule of 30_encoding.md section 5 (decision D23) is exact: the instructions that the encoder accepts are
those that some word decodes to, and every other is refused. -/
def Obligations.EncoderAcceptsExactlyTheDecodable : Prop :=
  ∀ i : Instr, ((∃ w, encode i = some w) ↔ ∃ w, decodeWord w = i) ∧ (i.wellFormed = false → encode i = none)

/-- Encoding what a word decodes to gives the word back with the don't-care bits of 30_encoding.md section 4 cleared
(decision D10): no other bit is dropped. -/
def Obligations.EncodeOfDecodeClearsDontCareBits : Prop :=
  ∀ w : Word, encodeWord (decodeWord w) = w &&& ~~~(decodeWord w).dontCare

/-- A don't-care bit selects nothing (30_encoding.md section 4, decision D10): changing any of them leaves the
instruction the same. -/
def Obligations.DontCareBitsSelectNothing : Prop :=
  ∀ w d : Word, d &&& ~~~(decodeWord w).dontCare = 0#16 → decodeWord (w ^^^ d) = decodeWord w

/-- The 38 rows of the opcode map (30_encoding.md section 3, mask and match) partition the words, and the decoder names
the row each word belongs to. -/
def Obligations.OpcodeMapPartitionsTheWords : Prop :=
  opcodeMap.length = 38 ∧
  ∀ w : Word, ∃ r ∈ opcodeMap, r.matchesWord w = true ∧ r.mnemonic = (decodeWord w).mnemonic ∧
    ∀ q ∈ opcodeMap, q.matchesWord w = true → q = r

/-- Words written out from the spec (95_test_vectors.md section 2.11), one for each family. -/
def Obligations.WrittenOutWordsDecode : Prop :=
  decodeWord 0x07FF#16 = .halt ∧ decodeWord 0x17FF#16 = .siic 7 ∧ decodeWord 0x423D#16 = .addi 1 2 (-3) ∧
  decodeWord 0xA23F#16 = .roli 1 2 15 ∧ decodeWord 0x823E#16 = .st 1 2 (-2) ∧ decodeWord 0xCEF7#16 = .btr 5 6 ∧
  decodeWord 0xDA64#16 = .add 1 2 3 ∧ decodeWord 0xEA2C#16 = .slt 3 2 1 ∧ decodeWord 0x61FC#16 = .beqz 1 (-4) ∧
  decodeWord 0x9380#16 = .slbi 3 0x80 ∧ decodeWord 0x27FE#16 = .j (-2) ∧ decodeWord 0x3CFA#16 = .jalr 4 (-6)

/-! ## HALT and NOP -/

/-- R101. -/
def Obligations.NopOnlyAdvancesPc : Prop :=
  ∀ (x : BitVec 11) (s : State),
    decodeWord (0b00001#5 ++ x) = .nop ∧ ∃ t, exec .nop s = .next t ∧ GoesTo s t (s.pc + 2#16)

/-- HALT (40_halt_nop.md): the halted bit is set, nothing else but pc changes, the host sees the memory as it was, and no
step follows. That pc is one of two values and not known to be either is the spec's decision D12 (log 4). -/
def Obligations.HaltStopsTheMachine : Prop :=
  ∀ (x : BitVec 11) (s : State),
    decodeWord (0b00000#5 ++ x) = .halt ∧
    ∃ t, exec .halt s = .next t ∧ t.halted = true ∧ (t.pc = s.pc ∨ t.pc = s.pc + 2#16) ∧
      (∀ q : RegNo, t.reg q = s.reg q) ∧ t.epc = s.epc ∧ t.written = s.written ∧ (∀ a : Word, t.byte a = s.byte a) ∧
      t.haltPcDraw = s.haltPcDraw ∧ t.dump = some s.mem ∧ ∀ u, step t ≠ .next u

/-! ## Arithmetic, logic, shifts and rotates with an immediate -/

/-- R111, R112: SUBI subtracts the register from the immediate. -/
def Obligations.AddiAndSubiUseTheSignedImmediate : Prop :=
  ∀ (rd rs : RegNo) (imm5 : BitVec 5) (s : State),
    (decodeWord (0b01000#5 ++ regBits rs ++ regBits rd ++ imm5) = .addi rd rs imm5.toInt ∧
      ∃ t, exec (.addi rd rs imm5.toInt) s = .next t ∧
        WritesReg s t rd (s.reg rs + imm5.signExtend 16) (s.pc + 2#16)) ∧
    (decodeWord (0b01001#5 ++ regBits rs ++ regBits rd ++ imm5) = .subi rd rs imm5.toInt ∧
      ∃ t, exec (.subi rd rs imm5.toInt) s = .next t ∧
        WritesReg s t rd (imm5.signExtend 16 - s.reg rs) (s.pc + 2#16))

/-- R113, R114: ANDNI complements the immediate after extending it. -/
def Obligations.XoriAndAndniUseTheUnsignedImmediate : Prop :=
  ∀ (rd rs : RegNo) (imm5 : BitVec 5) (s : State),
    (decodeWord (0b01010#5 ++ regBits rs ++ regBits rd ++ imm5) = .xori rd rs imm5.toNat ∧
      ∃ t, exec (.xori rd rs imm5.toNat) s = .next t ∧
        WritesReg s t rd (s.reg rs ^^^ imm5.setWidth 16) (s.pc + 2#16)) ∧
    (decodeWord (0b01011#5 ++ regBits rs ++ regBits rd ++ imm5) = .andni rd rs imm5.toNat ∧
      ∃ t, exec (.andni rd rs imm5.toNat) s = .next t ∧
        WritesReg s t rd (s.reg rs &&& ~~~(imm5.setWidth 16)) (s.pc + 2#16))

/-- R115, R116, R117, R118: the amount is the low four bits of the field. -/
def Obligations.ShiftImmediatesUseTheLowFourBits : Prop :=
  ∀ (rd rs : RegNo) (imm5 : BitVec 5) (s : State),
    (decodeWord (0b10100#5 ++ regBits rs ++ regBits rd ++ imm5) = .roli rd rs (imm5.toNat % 16) ∧
      ∃ t, exec (.roli rd rs (imm5.toNat % 16)) s = .next t ∧
        WritesReg s t rd (rol16 (s.reg rs) (imm5.toNat % 16)) (s.pc + 2#16)) ∧
    (decodeWord (0b10101#5 ++ regBits rs ++ regBits rd ++ imm5) = .slli rd rs (imm5.toNat % 16) ∧
      ∃ t, exec (.slli rd rs (imm5.toNat % 16)) s = .next t ∧
        WritesReg s t rd (sll16 (s.reg rs) (imm5.toNat % 16)) (s.pc + 2#16)) ∧
    (decodeWord (0b10110#5 ++ regBits rs ++ regBits rd ++ imm5) = .rori rd rs (imm5.toNat % 16) ∧
      ∃ t, exec (.rori rd rs (imm5.toNat % 16)) s = .next t ∧
        WritesReg s t rd (ror16 (s.reg rs) (imm5.toNat % 16)) (s.pc + 2#16)) ∧
    (decodeWord (0b10111#5 ++ regBits rs ++ regBits rd ++ imm5) = .srli rd rs (imm5.toNat % 16) ∧
      ∃ t, exec (.srli rd rs (imm5.toNat % 16)) s = .next t ∧
        WritesReg s t rd (srl16 (s.reg rs) (imm5.toNat % 16)) (s.pc + 2#16))

/-- R110: the four functions, by their formulas and bit by bit, for amounts 0 to 15. -/
def Obligations.ShiftAndRotateFunctionsBitByBit : Prop :=
  ∀ (v : Word) (n : Nat), n < 16 →
    (sll16 v n).toNat = v.toNat * 2 ^ n % 65536 ∧ (srl16 v n).toNat = v.toNat / 2 ^ n ∧
    rol16 v 0 = v ∧ ror16 v 0 = v ∧
    (0 < n → rol16 v n = sll16 v n ||| srl16 v (16 - n) ∧ ror16 v n = srl16 v n ||| sll16 v (16 - n)) ∧
    ror16 v n = rol16 v ((16 - n) % 16) ∧
    ∀ i : Nat, i < 16 →
      (sll16 v n).getLsbD i = (decide (n ≤ i) && v.getLsbD (i - n)) ∧
      (srl16 v n).getLsbD i = (decide (i + n ≤ 15) && v.getLsbD (i + n)) ∧
      (rol16 v n).getLsbD i = v.getLsbD ((i + 16 - n) % 16) ∧
      (ror16 v n).getLsbD i = v.getLsbD ((i + n) % 16)

/-! ## Loads and stores -/

/-- ST at an even address (42_load_store.md): the word goes to the effective address, high byte first (decision D4, log
9), both addresses into `written`, and no register changes. -/
def Obligations.StStoresTheWordBigEndian : Prop :=
  ∀ (rd rs : RegNo) (imm5 : BitVec 5) (s : State),
    decodeWord (0b10000#5 ++ regBits rs ++ regBits rd ++ imm5) = .st rd rs imm5.toInt ∧
    effectiveAddress s rs imm5.toInt = s.reg rs + imm5.signExtend 16 ∧
    ((effectiveAddress s rs imm5.toInt).getLsbD 0 = false →
      ∃ t, exec (.st rd rs imm5.toInt) s = .next t ∧
        StoresAt s t (effectiveAddress s rs imm5.toInt) (s.reg rd) (s.pc + 2#16) ∧ ∀ q : RegNo, t.reg q = s.reg q)

/-- LD at an even address (42_load_store.md): the destination receives the two bytes, high byte first (decision D4, log
9); the base is read before the destination is written. -/
def Obligations.LdLoadsTheWordBigEndian : Prop :=
  ∀ (rd rs : RegNo) (imm5 : BitVec 5) (s : State),
    decodeWord (0b10001#5 ++ regBits rs ++ regBits rd ++ imm5) = .ld rd rs imm5.toInt ∧
    effectiveAddress s rs imm5.toInt = s.reg rs + imm5.signExtend 16 ∧
    ((effectiveAddress s rs imm5.toInt).getLsbD 0 = false →
      ∃ t, exec (.ld rd rs imm5.toInt) s = .next t ∧
        WritesReg s t rd
          (s.byte (effectiveAddress s rs imm5.toInt) ++ s.byte (effectiveAddress s rs imm5.toInt + 1#16))
          (s.pc + 2#16))

/-- STU at an even address (42_load_store.md): the old Rd is stored as ST stores it, and one register receives the
address: Rd under one reading of `STU_UPDATE_REG`, Rs under the other. The spec leaves the reading open (decision D11,
log 5); the instruction follows one of the two, and which one is not known. -/
def Obligations.StuStoresAndUpdatesOneRegister : Prop :=
  ∀ (rd rs : RegNo) (imm5 : BitVec 5) (s : State),
    decodeWord (0b10011#5 ++ regBits rs ++ regBits rd ++ imm5) = .stu rd rs imm5.toInt ∧
    effectiveAddress s rs imm5.toInt = s.reg rs + imm5.signExtend 16 ∧
    exec (.stu rd rs imm5.toInt) s = stuUnder Config.stuUpdateReg rd rs imm5.toInt s ∧
    ((effectiveAddress s rs imm5.toInt).getLsbD 0 = false →
      (∃ t, exec (.stu rd rs imm5.toInt) s = .next t ∧
        StoresAt s t (effectiveAddress s rs imm5.toInt) (s.reg rd) (s.pc + 2#16) ∧
        ((t.reg rd = effectiveAddress s rs imm5.toInt ∧ ∀ q : RegNo, q ≠ rd → t.reg q = s.reg q) ∨
          (t.reg rs = effectiveAddress s rs imm5.toInt ∧ ∀ q : RegNo, q ≠ rs → t.reg q = s.reg q))) ∧
      (∃ t, stuUnder .rd rd rs imm5.toInt s = .next t ∧
        StoresAt s t (effectiveAddress s rs imm5.toInt) (s.reg rd) (s.pc + 2#16) ∧
        t.reg rd = effectiveAddress s rs imm5.toInt ∧ ∀ q : RegNo, q ≠ rd → t.reg q = s.reg q) ∧
      (∃ t, stuUnder .rs rd rs imm5.toInt s = .next t ∧
        StoresAt s t (effectiveAddress s rs imm5.toInt) (s.reg rd) (s.pc + 2#16) ∧
        t.reg rs = effectiveAddress s rs imm5.toInt ∧ ∀ q : RegNo, q ≠ rs → t.reg q = s.reg q))

/-- Where the three memory instructions stop (20_memory.md section 3, misaligned data access, decision D5): at an odd
effective address, with the address named, under either reading of STU. -/
def Obligations.OddDataAddressesFault : Prop :=
  ∀ (rd rs : RegNo) (imm : Int) (s : State), (effectiveAddress s rs imm).getLsbD 0 = true →
    exec (.st rd rs imm) s = .fault (.misalignedData (effectiveAddress s rs imm)) ∧
    exec (.ld rd rs imm) s = .fault (.misalignedData (effectiveAddress s rs imm)) ∧
    exec (.stu rd rs imm) s = .fault (.misalignedData (effectiveAddress s rs imm)) ∧
    ∀ u, stuUnder u rd rs imm s = .fault (.misalignedData (effectiveAddress s rs imm))

/-! ## Register-register instructions -/

/-- R131: bit i of the result is bit 15 - i of the source, and a second BTR restores the value. -/
def Obligations.BtrReversesTheBits : Prop :=
  ∀ (rd rs : RegNo) (x : BitVec 3) (y : BitVec 2) (s : State),
    decodeWord (0b11001#5 ++ regBits rs ++ x ++ regBits rd ++ y) = .btr rd rs ∧
    ∃ t, exec (.btr rd rs) s = .next t ∧ WritesReg s t rd (t.reg rd) (s.pc + 2#16) ∧
      (∀ i : Nat, i < 16 → (t.reg rd).getLsbD i = (s.reg rs).getLsbD (15 - i)) ∧
      ∃ u, exec (.btr rd rd) t = .next u ∧ u.reg rd = s.reg rs

/-- R132, R133, R134, R135: SUB subtracts the first source from the second, ANDN complements the second. -/
def Obligations.AddSubXorAndnCompute : Prop :=
  ∀ (rd rs rt : RegNo) (s : State),
    (decodeWord (0b11011#5 ++ regBits rs ++ regBits rt ++ regBits rd ++ 0b00#2) = .add rd rs rt ∧
      ∃ t, exec (.add rd rs rt) s = .next t ∧ WritesReg s t rd (s.reg rs + s.reg rt) (s.pc + 2#16)) ∧
    (decodeWord (0b11011#5 ++ regBits rs ++ regBits rt ++ regBits rd ++ 0b01#2) = .sub rd rs rt ∧
      ∃ t, exec (.sub rd rs rt) s = .next t ∧ WritesReg s t rd (s.reg rt - s.reg rs) (s.pc + 2#16)) ∧
    (decodeWord (0b11011#5 ++ regBits rs ++ regBits rt ++ regBits rd ++ 0b10#2) = .xor rd rs rt ∧
      ∃ t, exec (.xor rd rs rt) s = .next t ∧ WritesReg s t rd (s.reg rs ^^^ s.reg rt) (s.pc + 2#16)) ∧
    (decodeWord (0b11011#5 ++ regBits rs ++ regBits rt ++ regBits rd ++ 0b11#2) = .andn rd rs rt ∧
      ∃ t, exec (.andn rd rs rt) s = .next t ∧ WritesReg s t rd (s.reg rs &&& ~~~s.reg rt) (s.pc + 2#16))

/-- R136, R137, R138, R139: the amount is Rt modulo 16. -/
def Obligations.RegisterShiftsUseRtModuloSixteen : Prop :=
  ∀ (rd rs rt : RegNo) (s : State),
    (decodeWord (0b11010#5 ++ regBits rs ++ regBits rt ++ regBits rd ++ 0b00#2) = .rol rd rs rt ∧
      ∃ t, exec (.rol rd rs rt) s = .next t ∧
        WritesReg s t rd (rol16 (s.reg rs) ((s.reg rt).toNat % 16)) (s.pc + 2#16)) ∧
    (decodeWord (0b11010#5 ++ regBits rs ++ regBits rt ++ regBits rd ++ 0b01#2) = .sll rd rs rt ∧
      ∃ t, exec (.sll rd rs rt) s = .next t ∧
        WritesReg s t rd (sll16 (s.reg rs) ((s.reg rt).toNat % 16)) (s.pc + 2#16)) ∧
    (decodeWord (0b11010#5 ++ regBits rs ++ regBits rt ++ regBits rd ++ 0b10#2) = .ror rd rs rt ∧
      ∃ t, exec (.ror rd rs rt) s = .next t ∧
        WritesReg s t rd (ror16 (s.reg rs) ((s.reg rt).toNat % 16)) (s.pc + 2#16)) ∧
    (decodeWord (0b11010#5 ++ regBits rs ++ regBits rt ++ regBits rd ++ 0b11#2) = .srl rd rs rt ∧
      ∃ t, exec (.srl rd rs rt) s = .next t ∧
        WritesReg s t rd (srl16 (s.reg rs) ((s.reg rt).toNat % 16)) (s.pc + 2#16))

/-! ## Set instructions -/

/-- R141, R144. -/
def Obligations.SeqAndScoSetOneOrZero : Prop :=
  ∀ (rd rs rt : RegNo) (x : BitVec 2) (s : State),
    (decodeWord (0b11100#5 ++ regBits rs ++ regBits rt ++ regBits rd ++ x) = .seq rd rs rt ∧
      ∃ t, exec (.seq rd rs rt) s = .next t ∧
        WritesReg s t rd (if s.reg rs = s.reg rt then 0x0001#16 else 0x0000#16) (s.pc + 2#16)) ∧
    (decodeWord (0b11111#5 ++ regBits rs ++ regBits rt ++ regBits rd ++ x) = .sco rd rs rt ∧
      ∃ t, exec (.sco rd rs rt) s = .next t ∧
        WritesReg s t rd (if 65536 ≤ (s.reg rs).toNat + (s.reg rt).toNat then 0x0001#16 else 0x0000#16)
          (s.pc + 2#16))

/-- SLT and SLE compare the two's-complement integers; that they are signed is the spec's decision D8 (44_set.md). -/
def Obligations.SltAndSleCompareSigned : Prop :=
  ∀ (rd rs rt : RegNo) (x : BitVec 2) (s : State),
    (decodeWord (0b11101#5 ++ regBits rs ++ regBits rt ++ regBits rd ++ x) = .slt rd rs rt ∧
      ∃ t, exec (.slt rd rs rt) s = .next t ∧
        WritesReg s t rd (if (s.reg rs).toInt < (s.reg rt).toInt then 0x0001#16 else 0x0000#16) (s.pc + 2#16)) ∧
    (decodeWord (0b11110#5 ++ regBits rs ++ regBits rt ++ regBits rd ++ x) = .sle rd rs rt ∧
      ∃ t, exec (.sle rd rs rt) s = .next t ∧
        WritesReg s t rd (if (s.reg rs).toInt ≤ (s.reg rt).toInt then 0x0001#16 else 0x0000#16) (s.pc + 2#16))

/-- The sign-bit reading of SLT that 95_test_vectors.md section 1.8 gives: the signs differ and Rs is the negative one, or
they agree and the wrapped difference is negative; and SLE is SLT or SEQ (44_set.md, decision D8). -/
def Obligations.SltBySignBitsAndSleAsSltOrSeq : Prop :=
  ∀ (rd rs rt : RegNo) (s : State),
    ∃ lt eq le, exec (.slt rd rs rt) s = .next lt ∧ exec (.seq rd rs rt) s = .next eq ∧
      exec (.sle rd rs rt) s = .next le ∧
      (lt.reg rd = 0x0001#16 ↔
        ((s.reg rs).getLsbD 15 = true ∧ (s.reg rt).getLsbD 15 = false) ∨
        ((s.reg rs).getLsbD 15 = (s.reg rt).getLsbD 15 ∧ (s.reg rs - s.reg rt).getLsbD 15 = true)) ∧
      le.reg rd = lt.reg rd ||| eq.reg rd

/-- The unsigned comparison from SCO (44_set.md, closing section): SCO of the complement of `a` and of `b` is 1 exactly
when `a` is below `b` as an unsigned number. -/
def Obligations.ScoOfComplementComparesUnsigned : Prop :=
  ∀ (rd rs rt : RegNo) (s : State),
    ∃ t, exec (.sco rd rs rt) s = .next t ∧
      (t.reg rd = 0x0001#16 ↔ (~~~s.reg rs).toNat < (s.reg rt).toNat) ∧
      (t.reg rd = 0x0000#16 ↔ (s.reg rt).toNat ≤ (~~~s.reg rs).toNat)

/-! ## Branches -/

/-- R151, R152, R153, R154: taken and not taken. -/
def Obligations.BranchesTestOneRegister : Prop :=
  ∀ (rs : RegNo) (imm8 : BitVec 8) (s : State),
    (decodeWord (0b01100#5 ++ regBits rs ++ imm8) = .beqz rs imm8.toInt ∧
      ∃ t, exec (.beqz rs imm8.toInt) s = .next t ∧
        GoesTo s t (if s.reg rs = 0x0000#16 then s.pc + 2#16 + imm8.signExtend 16 else s.pc + 2#16)) ∧
    (decodeWord (0b01101#5 ++ regBits rs ++ imm8) = .bnez rs imm8.toInt ∧
      ∃ t, exec (.bnez rs imm8.toInt) s = .next t ∧
        GoesTo s t (if s.reg rs ≠ 0x0000#16 then s.pc + 2#16 + imm8.signExtend 16 else s.pc + 2#16)) ∧
    (decodeWord (0b01110#5 ++ regBits rs ++ imm8) = .bltz rs imm8.toInt ∧
      ∃ t, exec (.bltz rs imm8.toInt) s = .next t ∧
        GoesTo s t (if (s.reg rs).toInt < 0 then s.pc + 2#16 + imm8.signExtend 16 else s.pc + 2#16)) ∧
    (decodeWord (0b01111#5 ++ regBits rs ++ imm8) = .bgez rs imm8.toInt ∧
      ∃ t, exec (.bgez rs imm8.toInt) s = .next t ∧
        GoesTo s t (if 0 ≤ (s.reg rs).toInt then s.pc + 2#16 + imm8.signExtend 16 else s.pc + 2#16))

/-! ## Load-immediate -/

/-- R160. -/
def Obligations.LbiLoadsTheSignedImmediate : Prop :=
  ∀ (rs : RegNo) (imm8 : BitVec 8) (s : State),
    decodeWord (0b11000#5 ++ regBits rs ++ imm8) = .lbi rs imm8.toInt ∧
    ∃ t, exec (.lbi rs imm8.toInt) s = .next t ∧ WritesReg s t rs (imm8.signExtend 16) (s.pc + 2#16)

/-- SLBI (46_load_immediate.md): the old low byte followed by the immediate; the operator the document lost is the spec's
decision D24, under which every candidate gives this value. -/
def Obligations.SlbiShiftsInTheImmediate : Prop :=
  ∀ (rs : RegNo) (imm8 : BitVec 8) (s : State),
    decodeWord (0b10010#5 ++ regBits rs ++ imm8) = .slbi rs imm8.toNat ∧
    ∃ t, exec (.slbi rs imm8.toNat) s = .next t ∧
      WritesReg s t rs ((s.reg rs).extractLsb' 0 8 ++ imm8) (s.pc + 2#16)

/-- The pair LBI, SLBI loads any constant (46_load_immediate.md; SLBI by decision D24): the sign extension of LBI is
shifted out. -/
def Obligations.LbiThenSlbiLoadsAnyConstant : Prop :=
  ∀ (r : RegNo) (hi lo : BitVec 8) (s : State),
    ∃ t u, exec (.lbi r hi.toInt) s = .next t ∧ exec (.slbi r lo.toNat) t = .next u ∧
      WritesReg s u r (hi ++ lo) (s.pc + 4#16)

/-! ## Jumps -/

/-- R171, R172: J is relative to the next instruction, JR is absolute. -/
def Obligations.JumpsGoToTheirTargets : Prop :=
  (∀ (disp11 : BitVec 11) (s : State),
    decodeWord (0b00100#5 ++ disp11) = .j disp11.toInt ∧
    ∃ t, exec (.j disp11.toInt) s = .next t ∧ GoesTo s t (s.pc + 2#16 + disp11.signExtend 16)) ∧
  (∀ (rs : RegNo) (imm8 : BitVec 8) (s : State),
    decodeWord (0b00101#5 ++ regBits rs ++ imm8) = .jr rs imm8.toInt ∧
    ∃ t, exec (.jr rs imm8.toInt) s = .next t ∧ GoesTo s t (s.reg rs + imm8.signExtend 16))

/-- R173. -/
def Obligations.JalLinksAndJumps : Prop :=
  ∀ (disp11 : BitVec 11) (s : State),
    decodeWord (0b00110#5 ++ disp11) = .jal disp11.toInt ∧
    ∃ t, exec (.jal disp11.toInt) s = .next t ∧ WritesReg s t 7 (s.pc + 2#16) (s.pc + 2#16 + disp11.signExtend 16)

/-- JALR (47_jump.md): the target is computed from the register before R7 is written, also when the register is R7, which
is the spec's decision D9. -/
def Obligations.JalrLinksAndJumpsFromTheOldRegister : Prop :=
  ∀ (rs : RegNo) (imm8 : BitVec 8) (s : State),
    decodeWord (0b00111#5 ++ regBits rs ++ imm8) = .jalr rs imm8.toInt ∧
    ∃ t, exec (.jalr rs imm8.toInt) s = .next t ∧ WritesReg s t 7 (s.pc + 2#16) (s.reg rs + imm8.signExtend 16)

/-! ## The exception -/

/-- siic (48_exception_instructions.md, 60_exceptions.md section 4): IllegalOp is taken whatever the register field and
the low byte hold. The saved value and the handler address 0x0002 are the spec's decision D14, from general knowledge
(log 7), with the exception support of log 6. -/
def Obligations.SiicTakesIllegalOp : Prop :=
  ∀ (rs : RegNo) (x : BitVec 8) (s : State),
    decodeWord (0b00010#5 ++ regBits rs ++ x) = .siic rs ∧
    ∃ t, exec (.siic rs) s = .next t ∧ t.epc = s.pc + 2#16 ∧ t.pc = 0x0002#16 ∧ (∀ q : RegNo, t.reg q = s.reg q) ∧
      t.halted = s.halted ∧ t.written = s.written ∧ t.haltPcDraw = s.haltPcDraw ∧ ∀ a : Word, t.byte a = s.byte a

/-- RTI (48_exception_instructions.md): pc becomes epc, which keeps its value; on a machine without exception support
(decision D15, log 6) RTI is NOP. -/
def Obligations.RtiGoesToEpc : Prop :=
  ∀ (x : BitVec 11) (s : State),
    decodeWord (0b00011#5 ++ x) = .rti ∧ (∃ t, exec .rti s = .next t ∧ GoesTo s t s.epc) ∧
    (∃ t, rtiUnder true s = .next t ∧ GoesTo s t s.epc) ∧
    (∃ t, rtiUnder false s = .next t ∧ GoesTo s t (s.pc + 2#16))

/-- A machine without exception support (48_exception_instructions.md, decision D15; log 6): siic is refused by name, on
every state; with it siic is what the model executes. -/
def Obligations.SiicWithoutSupportIsRefused : Prop :=
  ∀ (rs : RegNo) (s : State), siicUnder false s = .refused (.unsupported "siic") ∧ exec (.siic rs) s = siicUnder true s

/-- The handler returns where it was entered from (60_exceptions.md sections 4 and 5, decisions D14 and D22): after a
siic, any run in which no further siic is executed, of any length, leaves epc alone, so that RTI goes to the instruction
after the siic. -/
def Obligations.HandlerReturnsAfterTheSiic : Prop :=
  ∀ (k : Nat) (rs : RegNo) (s a b : State), exec (.siic rs) s = .next a → Sys2Proof.core.run k a = .next b →
    (∀ (j : Nat) (m : State) (w : Word) (q : RegNo), j < k → Sys2Proof.core.run j a = .next m → fetch m = .ok w →
      decodeWord w ≠ .siic q) →
    ∃ u, exec .rti b = .next u ∧ GoesTo b u (s.pc + 2#16)

/-! ## The step -/

/-- The step runs the decoded instruction (10_state.md section 2): at an even pc whose two bytes no store has written, on a
machine that is not halted, the step is what the instruction does there and nothing more. -/
def Obligations.StepRunsTheDecodedInstruction : Prop :=
  ∀ (s : State) (i : Instr), s.halted = false → s.pc.getLsbD 0 = false → s.isWritten s.pc = false →
    s.isWritten (s.pc + 1#16) = false → decodeWord (s.byte s.pc ++ s.byte (s.pc + 1#16)) = i → step s = exec i s

/-- What stops a step before anything executes (60_exceptions.md section 3, decisions D6, D20, D31): an odd pc first, then
a byte that a store has written. -/
def Obligations.FetchFaultsComeFirst : Prop :=
  ∀ s : State, s.halted = false →
    (s.pc.getLsbD 0 = true → step s = .fault (.misalignedFetch s.pc)) ∧
    (s.pc.getLsbD 0 = false → (s.isWritten s.pc = true ∨ s.isWritten (s.pc + 1#16) = true) →
      step s = .fault (.staleFetch s.pc))

/-- The next pc of every instruction (10_state.md section 2): `pc + 2` but for the listed ones. HALT's two values are
decision D12 (log 4), siic's address is decision D14 (log 7). -/
def Obligations.NextPcOfEveryInstruction : Prop :=
  ∀ (i : Instr) (s t : State), exec i s = .next t → t.pc ∈ instrNextPcs i s

/-- R30: no instruction reads the halted bit, HALT sets it and no instruction clears it, and while it is set there is no
step. -/
def Obligations.HaltedBitIsSetByHaltAndReadByNone : Prop :=
  (∀ s t : State, s.halted = true → step s ≠ .next t) ∧
  ∀ (i : Instr) (s : State) (b : Bool),
    exec i { s with halted := b } = mapNext (fun t => { t with halted := if i = .halt then true else b }) (exec i s)

/-- Where the instructions stop (60_exceptions.md sections 1 and 3, decisions D5, D15): none is refused, and only LD, ST
and STU fault, exactly at an odd effective address. -/
def Obligations.OnlyMisalignedDataStopsAnInstruction : Prop :=
  (∀ (i : Instr) (s : State) (r : Refusal), exec i s ≠ .refused r) ∧
  ∀ (i : Instr) (s : State) (f : Fault), exec i s = .fault f ↔
    ∃ rd rs imm, (i = .ld rd rs imm ∨ i = .st rd rs imm ∨ i = .stu rd rs imm) ∧
      (effectiveAddress s rs imm).getLsbD 0 = true ∧ f = .misalignedData (effectiveAddress s rs imm)

/-! ## Who reads and writes what -/

/-- The register roles (10_state.md section 1): an instruction leaves every register it is not listed as writing, and a
register it is not listed as reading does not matter to it. STU's written register is the open one (decision D11, log 5). -/
def Obligations.RegisterRolesAreThoseOfTheTable : Prop :=
  (∀ (i : Instr) (s t : State) (q : RegNo), exec i s = .next t → q ∉ instrWrites i → t.reg q = s.reg q) ∧
  ∀ (i : Instr) (s : State) (q : RegNo) (v : Word), q ∉ instrReads i →
    exec i (s.setReg q v) = mapNext (fun t => if q ∈ instrWrites i then t else t.setReg q v) (exec i s)

/-- epc (10_state.md section 4; the value saved is decision D14, log 7): written by siic alone and read by RTI alone. -/
def Obligations.EpcIsWrittenBySiicAndReadByRti : Prop :=
  (∀ (i : Instr) (s : State) (v : Word), i ≠ .rti → (∀ q, i ≠ .siic q) →
    exec i { s with epc := v } = mapNext (fun t => { t with epc := v }) (exec i s)) ∧
  (∀ (q : RegNo) (s : State) (v : Word), exec (.siic q) { s with epc := v } = exec (.siic q) s) ∧
  ∀ (i : Instr) (s t : State), exec i s = .next t → (∀ q, i ≠ .siic q) → t.epc = s.epc

/-- Memory (10_state.md section 6): no instruction but LD, ST and STU reads or writes it, and LD writes none of it. -/
def Obligations.OnlyLoadsAndStoresReachMemory : Prop :=
  (∀ (i : Instr) (s : State) (m : Memory), (∀ rd rs imm, i ≠ .ld rd rs imm ∧ i ≠ .st rd rs imm ∧ i ≠ .stu rd rs imm) →
    exec i { s with mem := m } = mapNext (fun t => { t with mem := m }) (exec i s)) ∧
  ∀ (i : Instr) (s t : State), exec i s = .next t → (∀ rd rs imm, i ≠ .st rd rs imm ∧ i ≠ .stu rd rs imm) →
    (∀ a : Word, t.byte a = s.byte a) ∧ t.written = s.written

/-- The written set (10_state.md section 7, decision D20) is read by the fetch alone: apart from itself, nothing an
instruction does depends on it. -/
def Obligations.InstructionsDoNotReadTheWrittenSet : Prop :=
  ∀ (i : Instr) (s : State) (l : AddrSet),
    mapNext (fun t => { t with written := [] }) (exec i { s with written := l }) =
      mapNext (fun t => { t with written := [] }) (exec i s)

/-- The configuration a run carries never changes (10_state.md section 9): no instruction and no run, of any length and
from any state, changes the draw of `HALT_PC` (log 4). -/
def Obligations.NoRunChangesTheConfiguration : Prop :=
  (∀ (i : Instr) (s t : State), exec i s = .next t → t.toRunConfig = s.toRunConfig) ∧
  ∀ (k : Nat) (s t : State), Sys2Proof.core.run k s = .next t → t.toRunConfig = s.toRunConfig

/-- The complete state is the six components of `ArchState` (10_state.md section 9). From states that have them in common
and differ in the draw of `HALT_PC` alone (log 4), runs of any length stop alike or end in states with the same six
components, but for the pc of a halted one, which is one of the same two values (decision D12). -/
def Obligations.HaltPcDrawReachesOnlyThePcAfterHalt : Prop :=
  ∀ (k : Nat) (s : State) (n : Nat),
    (∀ f, Sys2Proof.core.run k s = .fault f → Sys2Proof.core.run k { s with haltPcDraw := n } = .fault f) ∧
    (∀ r, Sys2Proof.core.run k s = .refused r → Sys2Proof.core.run k { s with haltPcDraw := n } = .refused r) ∧
    ∀ t : State, Sys2Proof.core.run k s = .next t →
      ∃ u : State, Sys2Proof.core.run k { s with haltPcDraw := n } = .next u ∧
        (u.toArchState = t.toArchState ∨
          (t.halted = true ∧ u.toArchState = { t.toArchState with pc := u.pc } ∧
            ∃ p : Word, (t.pc = p ∨ t.pc = p + 2#16) ∧ (u.pc = p ∨ u.pc = p + 2#16)))

/-! ## Memory over a run -/

/-- A byte no store has written since reset is still the byte of the image (20_memory.md section 6, decisions D19, D20): a
step only adds to the written set, and a byte outside it is as before. -/
def Obligations.UnwrittenBytesKeepTheImage : Prop :=
  ∀ s t : State, step s = .next t →
    (∀ a : Word, s.isWritten a = true → t.isWritten a = true) ∧
    ∀ a : Word, t.isWritten a = false → t.byte a = s.byte a

/-- Program order (20_memory.md section 6, decision D19): after any run, from any state, each byte is the one the run's
last store to it wrote, or the old one, and a load returns exactly these bytes. -/
def Obligations.LoadsReturnTheLastStore : Prop :=
  ∀ (k : Nat) (s t : State), Sys2Proof.core.run k s = .next t →
    (∀ a : Word, t.byte a = lastStored (storesOfRun k s) a (s.byte a)) ∧
    ∀ (rd rs : RegNo) (imm : Int), (effectiveAddress t rs imm).getLsbD 0 = false →
      ∃ u, exec (.ld rd rs imm) t = .next u ∧
        u.reg rd = lastStored (storesOfRun k s) (effectiveAddress t rs imm) (s.byte (effectiveAddress t rs imm)) ++
          lastStored (storesOfRun k s) (effectiveAddress t rs imm + 1#16) (s.byte (effectiveAddress t rs imm + 1#16))

/-- The stale fetch admits both arrangements of memory (20_memory.md section 8, decision D20): wherever the machine goes on,
for any number of steps, a machine that fetches from a separate copy of the image and one that fetches from the memory
the stores go to both do the same. -/
def Obligations.SplitAndUnifiedMemoryAgree : Prop :=
  ∀ (image : Word → Byte) (k : Nat) (s t : State), (∀ a : Word, s.isWritten a = false → image a = s.byte a) →
    Sys2Proof.core.run k s = .next t →
    runFetchingFrom (fun _ => image) k s = .next t ∧ runFetchingFrom State.byte k s = .next t

/-! ## The canonical form, the invariant and reset -/

/-- Every content of memory has one canonical form (the model's representation of the 65536 bytes, log 3): each image the
host may load is some well-formed memory, and two well-formed memories that read alike are the same. -/
def Obligations.EveryImageHasOneCanonicalMemory : Prop :=
  (∀ image : Word → Byte, ∃ m : Memory, m.wf = true ∧ ∀ a : Word, m.read a.toNat = image a) ∧
  ∀ m n : Memory, m.wf = true → n.wf = true → (∀ a : Word, m.read a.toNat = n.read a.toNat) → m = n

/-- Every step keeps the invariant, from every state that has it: memory and the written set in their canonical form
within the 65536 addresses, and epc even (48_exception_instructions.md: an odd epc arises only from reset). -/
def Obligations.EveryStepKeepsTheInvariant : Prop :=
  ∀ s t : State, s.Inv → step s = .next t → t.Inv

/-- Reset (10_state.md section 8, decision D18; the values of the open parts are arguments, log 1 to 4): pc 0x0000, running,
nothing written, the bytes of the image, the given registers and epc, whatever the draw of `HALT_PC` (log 4); and the
invariant holds, for `State.reset` too. -/
def Obligations.ResetStateAndInvariantAtReset : Prop :=
  (∀ (image : Memory) (x : Vector Word 8) (epc : Word) (d : Nat),
    (State.resetWith image x epc d).pc = 0x0000#16 ∧ (State.resetWith image x epc d).halted = false ∧
    (∀ a : Word, (State.resetWith image x epc d).isWritten a = false) ∧
    (∀ a : Word, (State.resetWith image x epc d).byte a = image.read a.toNat) ∧
    (∀ q : RegNo, (State.resetWith image x epc d).reg q = x[q]) ∧ (State.resetWith image x epc d).epc = epc ∧
    (State.resetWith image x epc d).haltPcDraw = d ∧
    (image.wf = true → epc.getLsbD 0 = false → (State.resetWith image x epc d).Inv)) ∧
  State.reset.Inv
end

