-- ==== Sys2Proof/Laws/Decode.lean ====
section
/-! SUPPORT. The fields of a word built in a format (30_encoding.md R62 to R66), and operands through their fields (R67, R76). -/

namespace Sys2Proof

/-! ## The fields of each format -/

@[simp] theorem opcodeField_wordS (op : BitVec 5) : opcodeField (wordS op) = op := by
  apply BitVec.eq_of_getLsbD_eq
  intro i hi
  simp only [opcodeField, wordS, BitVec.getLsbD_append, BitVec.getLsbD_extractLsb']
  interval_cases i <;> simp

@[simp] theorem opcodeField_wordSiic (op : BitVec 5) (rs : RegNo) : opcodeField (wordSiic op rs) = op := by
  apply BitVec.eq_of_getLsbD_eq
  intro i hi
  simp only [opcodeField, wordSiic, BitVec.getLsbD_append, BitVec.getLsbD_extractLsb']
  interval_cases i <;> simp

@[simp] theorem opcodeField_wordJ (op : BitVec 5) (disp : BitVec 11) : opcodeField (wordJ op disp) = op := by
  apply BitVec.eq_of_getLsbD_eq
  intro i hi
  simp only [opcodeField, wordJ, BitVec.getLsbD_append, BitVec.getLsbD_extractLsb']
  interval_cases i <;> simp

@[simp] theorem opcodeField_wordI1 (op : BitVec 5) (rs rd : RegNo) (imm : BitVec 5) : opcodeField (wordI1 op rs rd imm) = op := by
  apply BitVec.eq_of_getLsbD_eq
  intro i hi
  simp only [opcodeField, wordI1, BitVec.getLsbD_append, BitVec.getLsbD_extractLsb']
  interval_cases i <;> simp

@[simp] theorem opcodeField_wordI2 (op : BitVec 5) (rs : RegNo) (imm : BitVec 8) : opcodeField (wordI2 op rs imm) = op := by
  apply BitVec.eq_of_getLsbD_eq
  intro i hi
  simp only [opcodeField, wordI2, BitVec.getLsbD_append, BitVec.getLsbD_extractLsb']
  interval_cases i <;> simp

@[simp] theorem opcodeField_wordR (op : BitVec 5) (rs rt rd : RegNo) (funct : BitVec 2) : opcodeField (wordR op rs rt rd funct) = op := by
  apply BitVec.eq_of_getLsbD_eq
  intro i hi
  simp only [opcodeField, wordR, BitVec.getLsbD_append, BitVec.getLsbD_extractLsb']
  interval_cases i <;> simp

@[simp] theorem regField10_wordSiic (op : BitVec 5) (rs : RegNo) : regField10 (wordSiic op rs) = rs := by
  have h : (wordSiic op rs).extractLsb' 8 3 = regBits rs := by
    apply BitVec.eq_of_getLsbD_eq
    intro i hi
    simp only [wordSiic, BitVec.getLsbD_append, BitVec.getLsbD_extractLsb']
    interval_cases i <;> simp
  simp only [regField10, h, regBits]

@[simp] theorem regField10_wordI1 (op : BitVec 5) (rs rd : RegNo) (imm : BitVec 5) : regField10 (wordI1 op rs rd imm) = rs := by
  have h : (wordI1 op rs rd imm).extractLsb' 8 3 = regBits rs := by
    apply BitVec.eq_of_getLsbD_eq
    intro i hi
    simp only [wordI1, BitVec.getLsbD_append, BitVec.getLsbD_extractLsb']
    interval_cases i <;> simp
  simp only [regField10, h, regBits]

@[simp] theorem regField10_wordI2 (op : BitVec 5) (rs : RegNo) (imm : BitVec 8) : regField10 (wordI2 op rs imm) = rs := by
  have h : (wordI2 op rs imm).extractLsb' 8 3 = regBits rs := by
    apply BitVec.eq_of_getLsbD_eq
    intro i hi
    simp only [wordI2, BitVec.getLsbD_append, BitVec.getLsbD_extractLsb']
    interval_cases i <;> simp
  simp only [regField10, h, regBits]

@[simp] theorem regField10_wordR (op : BitVec 5) (rs rt rd : RegNo) (funct : BitVec 2) : regField10 (wordR op rs rt rd funct) = rs := by
  have h : (wordR op rs rt rd funct).extractLsb' 8 3 = regBits rs := by
    apply BitVec.eq_of_getLsbD_eq
    intro i hi
    simp only [wordR, BitVec.getLsbD_append, BitVec.getLsbD_extractLsb']
    interval_cases i <;> simp
  simp only [regField10, h, regBits]

@[simp] theorem regField7_wordI1 (op : BitVec 5) (rs rd : RegNo) (imm : BitVec 5) : regField7 (wordI1 op rs rd imm) = rd := by
  have h : (wordI1 op rs rd imm).extractLsb' 5 3 = regBits rd := by
    apply BitVec.eq_of_getLsbD_eq
    intro i hi
    simp only [wordI1, BitVec.getLsbD_append, BitVec.getLsbD_extractLsb']
    interval_cases i <;> simp
  simp only [regField7, h, regBits]

@[simp] theorem regField7_wordR (op : BitVec 5) (rs rt rd : RegNo) (funct : BitVec 2) : regField7 (wordR op rs rt rd funct) = rt := by
  have h : (wordR op rs rt rd funct).extractLsb' 5 3 = regBits rt := by
    apply BitVec.eq_of_getLsbD_eq
    intro i hi
    simp only [wordR, BitVec.getLsbD_append, BitVec.getLsbD_extractLsb']
    interval_cases i <;> simp
  simp only [regField7, h, regBits]

@[simp] theorem regField4_wordR (op : BitVec 5) (rs rt rd : RegNo) (funct : BitVec 2) : regField4 (wordR op rs rt rd funct) = rd := by
  have h : (wordR op rs rt rd funct).extractLsb' 2 3 = regBits rd := by
    apply BitVec.eq_of_getLsbD_eq
    intro i hi
    simp only [wordR, BitVec.getLsbD_append, BitVec.getLsbD_extractLsb']
    interval_cases i <;> simp
  simp only [regField4, h, regBits]

@[simp] theorem functField_wordR (op : BitVec 5) (rs rt rd : RegNo) (funct : BitVec 2) : functField (wordR op rs rt rd funct) = funct := by
  apply BitVec.eq_of_getLsbD_eq
  intro i hi
  simp only [functField, wordR, BitVec.getLsbD_append, BitVec.getLsbD_extractLsb']
  interval_cases i <;> simp

@[simp] theorem disp11Field_wordJ (op : BitVec 5) (disp : BitVec 11) : disp11Field (wordJ op disp) = disp := by
  apply BitVec.eq_of_getLsbD_eq
  intro i hi
  simp only [disp11Field, wordJ, BitVec.getLsbD_append, BitVec.getLsbD_extractLsb']
  interval_cases i <;> simp

@[simp] theorem imm5Field_wordI1 (op : BitVec 5) (rs rd : RegNo) (imm : BitVec 5) : imm5Field (wordI1 op rs rd imm) = imm := by
  apply BitVec.eq_of_getLsbD_eq
  intro i hi
  simp only [imm5Field, wordI1, BitVec.getLsbD_append, BitVec.getLsbD_extractLsb']
  interval_cases i <;> simp

@[simp] theorem amountField_wordI1 (op : BitVec 5) (rs rd : RegNo) (imm : BitVec 5) : amountField (wordI1 op rs rd imm) = imm.extractLsb' 0 4 := by
  apply BitVec.eq_of_getLsbD_eq
  intro i hi
  simp only [amountField, wordI1, BitVec.getLsbD_append, BitVec.getLsbD_extractLsb']
  interval_cases i <;> simp

@[simp] theorem imm8Field_wordI2 (op : BitVec 5) (rs : RegNo) (imm : BitVec 8) : imm8Field (wordI2 op rs imm) = imm := by
  apply BitVec.eq_of_getLsbD_eq
  intro i hi
  simp only [imm8Field, wordI2, BitVec.getLsbD_append, BitVec.getLsbD_extractLsb']
  interval_cases i <;> simp

/-! ## Operands in range survive their fields -/

theorem toInt_ofInt_of_fitsSigned5 {v : Int} (h : fitsSigned5 v = true) : (BitVec.ofInt 5 v).toInt = v := by
  simp only [fitsSigned5, Bool.and_eq_true, decide_eq_true_eq] at h
  rw [BitVec.toInt_ofInt]; simp only [Int.bmod]; omega

theorem toInt_ofInt_of_fitsSigned8 {v : Int} (h : fitsSigned8 v = true) : (BitVec.ofInt 8 v).toInt = v := by
  simp only [fitsSigned8, Bool.and_eq_true, decide_eq_true_eq] at h
  rw [BitVec.toInt_ofInt]; simp only [Int.bmod]; omega

theorem toInt_ofInt_of_fitsSigned11 {v : Int} (h : fitsSigned11 v = true) : (BitVec.ofInt 11 v).toInt = v := by
  simp only [fitsSigned11, Bool.and_eq_true, decide_eq_true_eq] at h
  rw [BitVec.toInt_ofInt]; simp only [Int.bmod]; omega

theorem toNat_ofNat_of_fitsUnsigned5 {v : Nat} (h : fitsUnsigned5 v = true) : (BitVec.ofNat 5 v).toNat = v := by
  simp only [fitsUnsigned5, decide_eq_true_eq] at h
  rw [BitVec.toNat_ofNat]; omega

theorem toNat_ofNat_of_fitsUnsigned8 {v : Nat} (h : fitsUnsigned8 v = true) : (BitVec.ofNat 8 v).toNat = v := by
  simp only [fitsUnsigned8, decide_eq_true_eq] at h
  rw [BitVec.toNat_ofNat]; omega

theorem toNat_amount_of_fitsAmount {v : Nat} (h : fitsAmount v = true) :
    ((BitVec.ofNat 5 v).extractLsb' 0 4).toNat = v := by
  simp only [fitsAmount, decide_eq_true_eq] at h
  simp only [BitVec.extractLsb'_toNat, BitVec.toNat_ofNat, Nat.shiftRight_zero]; omega

/-! ## Words and bytes -/

/-- The two bytes of a word, put together again, are the word (R43). -/
@[simp] theorem wordOfBytes_bytes (w : Word) : wordOfBytes (highByte w) (lowByte w) = w := by
  apply BitVec.eq_of_getLsbD_eq
  intro i hi
  simp only [wordOfBytes, highByte, lowByte, BitVec.getLsbD_append, BitVec.getLsbD_extractLsb']
  interval_cases i <;> simp

/-! ## The masks of the opcode map (R70) -/

theorem and_opcodeMask (w : Word) : w &&& 0xF800#16 = (opcodeField w ++ 0#11 : Word) := by
  apply BitVec.eq_of_getLsbD_eq
  intro i hi
  simp only [opcodeField, BitVec.getLsbD_append, BitVec.getLsbD_extractLsb', BitVec.getLsbD_and]
  interval_cases i <;> simp

theorem and_opcodeFunctMask (w : Word) : w &&& 0xF803#16 = (opcodeField w ++ 0#9 ++ functField w : Word) := by
  apply BitVec.eq_of_getLsbD_eq
  intro i hi
  simp only [opcodeField, functField, BitVec.getLsbD_append, BitVec.getLsbD_extractLsb', BitVec.getLsbD_and]
  interval_cases i <;> simp

end Sys2Proof
end

