-- ==== Sys2Proof/Laws/State.lean ====
section
/-! SUPPORT. What each update of the state does to each of its fields and to each read of it. -/

namespace Sys2Proof.Machine

/-! ## One lemma per field per update -/

@[simp] theorem State.setReg_regs (s : State) (r : RegNo) (v : Word) : (s.setReg r v).regs = s.regs.set r v := rfl
@[simp] theorem State.setReg_pc (s : State) (r : RegNo) (v : Word) : (s.setReg r v).pc = s.pc := rfl
@[simp] theorem State.setReg_epc (s : State) (r : RegNo) (v : Word) : (s.setReg r v).epc = s.epc := rfl
@[simp] theorem State.setReg_halted (s : State) (r : RegNo) (v : Word) : (s.setReg r v).halted = s.halted := rfl
@[simp] theorem State.setReg_mem (s : State) (r : RegNo) (v : Word) : (s.setReg r v).mem = s.mem := rfl
@[simp] theorem State.setReg_written (s : State) (r : RegNo) (v : Word) : (s.setReg r v).written = s.written := rfl
@[simp] theorem State.setReg_haltPcDraw (s : State) (r : RegNo) (v : Word) : (s.setReg r v).haltPcDraw = s.haltPcDraw := rfl

@[simp] theorem State.goto_regs (s : State) (p : Word) : (s.goto p).regs = s.regs := rfl
@[simp] theorem State.goto_pc (s : State) (p : Word) : (s.goto p).pc = p := rfl
@[simp] theorem State.goto_epc (s : State) (p : Word) : (s.goto p).epc = s.epc := rfl
@[simp] theorem State.goto_halted (s : State) (p : Word) : (s.goto p).halted = s.halted := rfl
@[simp] theorem State.goto_mem (s : State) (p : Word) : (s.goto p).mem = s.mem := rfl
@[simp] theorem State.goto_written (s : State) (p : Word) : (s.goto p).written = s.written := rfl
@[simp] theorem State.goto_haltPcDraw (s : State) (p : Word) : (s.goto p).haltPcDraw = s.haltPcDraw := rfl

@[simp] theorem State.storeWord_regs (s : State) (a v : Word) : (s.storeWord a v).regs = s.regs := rfl
@[simp] theorem State.storeWord_pc (s : State) (a v : Word) : (s.storeWord a v).pc = s.pc := rfl
@[simp] theorem State.storeWord_epc (s : State) (a v : Word) : (s.storeWord a v).epc = s.epc := rfl
@[simp] theorem State.storeWord_halted (s : State) (a v : Word) : (s.storeWord a v).halted = s.halted := rfl
@[simp] theorem State.storeWord_mem (s : State) (a v : Word) : (s.storeWord a v).mem = Memory.write (Memory.write s.mem a.toNat (highByte v)) (a + 1#16).toNat (lowByte v) := rfl
@[simp] theorem State.storeWord_written (s : State) (a v : Word) : (s.storeWord a v).written = AddrSet.insert (AddrSet.insert s.written a.toNat) (a + 1#16).toNat := rfl
@[simp] theorem State.storeWord_haltPcDraw (s : State) (a v : Word) : (s.storeWord a v).haltPcDraw = s.haltPcDraw := rfl

@[simp] theorem State.takeIllegalOp_regs (s : State) : (s.takeIllegalOp).regs = s.regs := rfl
@[simp] theorem State.takeIllegalOp_pc (s : State) : (s.takeIllegalOp).pc = Config.excVector := rfl
@[simp] theorem State.takeIllegalOp_epc (s : State) : (s.takeIllegalOp).epc = s.nextPc := rfl
@[simp] theorem State.takeIllegalOp_halted (s : State) : (s.takeIllegalOp).halted = s.halted := rfl
@[simp] theorem State.takeIllegalOp_mem (s : State) : (s.takeIllegalOp).mem = s.mem := rfl
@[simp] theorem State.takeIllegalOp_written (s : State) : (s.takeIllegalOp).written = s.written := rfl
@[simp] theorem State.takeIllegalOp_haltPcDraw (s : State) : (s.takeIllegalOp).haltPcDraw = s.haltPcDraw := rfl

@[simp] theorem State.halt_regs (s : State) : (s.halt).regs = s.regs := rfl
@[simp] theorem State.halt_pc (s : State) : (s.halt).pc = s.haltPc := rfl
@[simp] theorem State.halt_epc (s : State) : (s.halt).epc = s.epc := rfl
@[simp] theorem State.halt_halted (s : State) : (s.halt).halted = true := rfl
@[simp] theorem State.halt_mem (s : State) : (s.halt).mem = s.mem := rfl
@[simp] theorem State.halt_written (s : State) : (s.halt).written = s.written := rfl
@[simp] theorem State.halt_haltPcDraw (s : State) : (s.halt).haltPcDraw = s.haltPcDraw := rfl

/-! ## Reads of an updated state -/

theorem State.reg_setReg (s : State) (r q : RegNo) (v : Word) :
    (s.setReg r v).reg q = if q = r then v else s.reg q := by
  simp only [State.reg, State.setReg, Fin.getElem_fin, Vector.getElem_set, Fin.ext_iff, eq_comm (a := r.val)]

@[simp] theorem State.reg_setReg_same (s : State) (r : RegNo) (v : Word) : (s.setReg r v).reg r = v := by
  simp [State.reg_setReg]

theorem State.reg_setReg_other (s : State) {r q : RegNo} (v : Word) (h : q ≠ r) :
    (s.setReg r v).reg q = s.reg q := by
  simp [State.reg_setReg, h]

@[simp] theorem State.byte_setReg (s : State) (r : RegNo) (v a : Word) : (s.setReg r v).byte a = s.byte a := rfl
@[simp] theorem State.word_setReg (s : State) (r : RegNo) (v a : Word) : (s.setReg r v).word a = s.word a := rfl
@[simp] theorem State.isWritten_setReg (s : State) (r : RegNo) (v a : Word) :
    (s.setReg r v).isWritten a = s.isWritten a := rfl
@[simp] theorem State.nextPc_setReg (s : State) (r : RegNo) (v : Word) : (s.setReg r v).nextPc = s.nextPc := rfl

@[simp] theorem State.reg_goto (s : State) (p : Word) (q : RegNo) : (s.goto p).reg q = s.reg q := rfl
@[simp] theorem State.byte_goto (s : State) (p a : Word) : (s.goto p).byte a = s.byte a := rfl
@[simp] theorem State.word_goto (s : State) (p a : Word) : (s.goto p).word a = s.word a := rfl
@[simp] theorem State.isWritten_goto (s : State) (p a : Word) : (s.goto p).isWritten a = s.isWritten a := rfl

@[simp] theorem State.reg_storeWord (s : State) (a v : Word) (q : RegNo) : (s.storeWord a v).reg q = s.reg q := rfl
@[simp] theorem State.nextPc_storeWord (s : State) (a v : Word) : (s.storeWord a v).nextPc = s.nextPc := rfl

@[simp] theorem State.reg_takeIllegalOp (s : State) (q : RegNo) : s.takeIllegalOp.reg q = s.reg q := rfl
@[simp] theorem State.byte_takeIllegalOp (s : State) (a : Word) : s.takeIllegalOp.byte a = s.byte a := rfl
@[simp] theorem State.isWritten_takeIllegalOp (s : State) (a : Word) :
    s.takeIllegalOp.isWritten a = s.isWritten a := rfl

@[simp] theorem State.reg_halt (s : State) (q : RegNo) : s.halt.reg q = s.reg q := rfl
@[simp] theorem State.byte_halt (s : State) (a : Word) : s.halt.byte a = s.byte a := rfl
@[simp] theorem State.isWritten_halt (s : State) (a : Word) : s.halt.isWritten a = s.isWritten a := rfl

theorem State.advance_eq_goto (s : State) : s.advance = s.goto s.nextPc := rfl
theorem State.returnFromException_eq_goto (s : State) : s.returnFromException = s.goto s.epc := rfl

/-! ## Updates of different parts commute -/

theorem State.setReg_goto (s : State) (r : RegNo) (v p : Word) : (s.setReg r v).goto p = (s.goto p).setReg r v := rfl
theorem State.setReg_storeWord (s : State) (r : RegNo) (v a w : Word) :
    (s.setReg r v).storeWord a w = (s.storeWord a w).setReg r v := rfl
theorem State.setReg_takeIllegalOp (s : State) (r : RegNo) (v : Word) :
    (s.setReg r v).takeIllegalOp = s.takeIllegalOp.setReg r v := rfl
theorem State.setReg_halt (s : State) (r : RegNo) (v : Word) : (s.setReg r v).halt = s.halt.setReg r v := rfl

theorem State.setReg_setReg_same (s : State) (r : RegNo) (u v : Word) :
    (s.setReg r u).setReg r v = s.setReg r v := by
  simp only [State.setReg, Vector.set_set]

theorem State.setReg_setReg_comm (s : State) {r q : RegNo} (u v : Word) (h : r ≠ q) :
    (s.setReg r u).setReg q v = (s.setReg q v).setReg r u := by
  simp only [State.setReg, State.mk.injEq, ArchState.mk.injEq, and_true]
  exact Vector.set_comm u v (fun e => h (Fin.ext e))

end Sys2Proof.Machine
end

