-- ==== Sys2Proof/Laws/Memory.lean ====
section
/-! SUPPORT. The laws of memory and of address sets: a read after a write, and the canonical form that every operation
keeps (20_memory.md R41, R45; 10_state.md R34). -/

namespace Sys2Proof.Machine

/-! ## A read after a write -/

theorem Memory.read_insert (m : Memory) (a c : Nat) (v : Byte) :
    (Memory.insert m a v).read c = if c = a then v else m.read c := by
  induction m with
  | nil => simp only [Memory.insert, Memory.read]
  | cons e m ih =>
    obtain ⟨b, u⟩ := e
    simp only [Memory.insert]
    split
    · simp only [Memory.read]
    · split
      · subst_vars; simp only [Memory.read]; split <;> rfl
      · simp only [Memory.read, ih]; split <;> split <;> first | rfl | omega

theorem Memory.read_erase (m : Memory) (a c : Nat) :
    (Memory.erase m a).read c = if c = a then Memory.unlisted else m.read c := by
  induction m with
  | nil => simp [Memory.erase, Memory.read]
  | cons e m ih =>
    obtain ⟨b, u⟩ := e
    simp only [Memory.erase] at ih ⊢
    by_cases hb : b = a
    · simp only [List.filter_cons, hb, bne_self_eq_false, Bool.false_eq_true, if_false, ih, Memory.read]
      split <;> rfl
    · simp only [List.filter_cons, bne_iff_ne, ne_eq, hb, not_false_eq_true, if_true, Memory.read, ih]
      split <;> split <;> first | rfl | omega

/-- The byte written is read back, and every other byte is left alone, whatever form the memory is in. -/
theorem Memory.read_write (m : Memory) (a c : Nat) (v : Byte) :
    (Memory.write m a v).read c = if c = a then v else m.read c := by
  simp only [Memory.write]
  split
  · subst_vars; exact Memory.read_erase m a c
  · exact Memory.read_insert m a c v

theorem AddrSet.mem_insert (l : AddrSet) (a c : Nat) : c ∈ AddrSet.insert l a ↔ c = a ∨ c ∈ l := by
  induction l with
  | nil => simp [AddrSet.insert]
  | cons b l ih =>
    simp only [AddrSet.insert]
    split
    · simp
    · split
      · subst_vars; simp
      · simp only [List.mem_cons, ih]; tauto

/-! ## The canonical form -/

theorem Memory.wfFrom_weaken {lo lo' : Nat} {m : Memory} (h : lo' ≤ lo) (hm : Memory.wfFrom lo m = true) :
    Memory.wfFrom lo' m = true := by
  cases m with
  | nil => rfl
  | cons e m =>
    simp only [Memory.wfFrom, Bool.and_eq_true, decide_eq_true_eq] at hm ⊢
    exact ⟨⟨⟨by omega, hm.1.1.2⟩, hm.1.2⟩, hm.2⟩

theorem Memory.wfFrom_insert {lo a : Nat} {v : Byte} {m : Memory} (hm : Memory.wfFrom lo m = true) (hlo : lo ≤ a)
    (ha : a < 65536) (hv : v ≠ Memory.unlisted) : Memory.wfFrom lo (Memory.insert m a v) = true := by
  induction m generalizing lo with
  | nil => simp [Memory.insert, Memory.wfFrom, hlo, ha, hv]
  | cons e m ih =>
    obtain ⟨b, u⟩ := e
    simp only [Memory.wfFrom, Bool.and_eq_true, decide_eq_true_eq] at hm
    simp only [Memory.insert]
    split
    · simp only [Memory.wfFrom, Bool.and_eq_true, decide_eq_true_eq, bne_iff_ne]
      exact ⟨⟨⟨hlo, ha⟩, hv⟩, ⟨⟨by omega, hm.1.1.2⟩, by simpa using hm.1.2⟩, hm.2⟩
    · split
      · subst_vars
        simp only [Memory.wfFrom, Bool.and_eq_true, decide_eq_true_eq, bne_iff_ne]
        exact ⟨⟨⟨hlo, ha⟩, hv⟩, hm.2⟩
      · simp only [Memory.wfFrom, Bool.and_eq_true, decide_eq_true_eq]
        exact ⟨hm.1, ih hm.2 (by omega)⟩

theorem Memory.wfFrom_erase {lo a : Nat} {m : Memory} (hm : Memory.wfFrom lo m = true) :
    Memory.wfFrom lo (Memory.erase m a) = true := by
  induction m generalizing lo with
  | nil => rfl
  | cons e m ih =>
    obtain ⟨b, u⟩ := e
    simp only [Memory.wfFrom, Bool.and_eq_true, decide_eq_true_eq] at hm
    simp only [Memory.erase] at ih ⊢
    by_cases hb : b = a
    · simp only [List.filter_cons, hb, bne_self_eq_false, Bool.false_eq_true, if_false]
      exact Memory.wfFrom_weaken (by omega) (ih hm.2)
    · simp only [List.filter_cons, bne_iff_ne, ne_eq, hb, not_false_eq_true, if_true, Memory.wfFrom, Bool.and_eq_true,
        decide_eq_true_eq]
      exact ⟨⟨hm.1.1, by simpa using hm.1.2⟩, ih hm.2⟩

/-- A write at one of the 65536 addresses keeps the canonical form. -/
theorem Memory.wf_write {a : Nat} {v : Byte} {m : Memory} (hm : m.wf = true) (ha : a < 65536) :
    (Memory.write m a v).wf = true := by
  simp only [Memory.write]
  split
  · exact Memory.wfFrom_erase hm
  · exact Memory.wfFrom_insert hm (Nat.zero_le a) ha (by assumption)

theorem AddrSet.wfFrom_insert {lo a : Nat} {l : AddrSet} (hl : AddrSet.wfFrom lo l = true) (hlo : lo ≤ a)
    (ha : a < 65536) : AddrSet.wfFrom lo (AddrSet.insert l a) = true := by
  induction l generalizing lo with
  | nil => simp [AddrSet.insert, AddrSet.wfFrom, hlo, ha]
  | cons b l ih =>
    simp only [AddrSet.wfFrom, Bool.and_eq_true, decide_eq_true_eq] at hl
    simp only [AddrSet.insert]
    split
    · simp only [AddrSet.wfFrom, Bool.and_eq_true, decide_eq_true_eq]
      exact ⟨⟨hlo, ha⟩, ⟨by omega, hl.1.2⟩, hl.2⟩
    · split
      · simp only [AddrSet.wfFrom, Bool.and_eq_true, decide_eq_true_eq]; exact hl
      · simp only [AddrSet.wfFrom, Bool.and_eq_true, decide_eq_true_eq]
        exact ⟨hl.1, ih hl.2 (by omega)⟩

/-- Adding one of the 65536 addresses keeps the canonical form. -/
theorem AddrSet.wf_insert {a : Nat} {l : AddrSet} (hl : AddrSet.wf l = true) (ha : a < 65536) :
    AddrSet.wf (AddrSet.insert l a) = true :=
  AddrSet.wfFrom_insert hl (Nat.zero_le a) ha

/-- A store keeps the canonical form of memory. -/
theorem State.mem_wf_storeWord {s : State} (a v : Word) (h : s.mem.wf = true) : (s.storeWord a v).mem.wf = true :=
  Memory.wf_write (Memory.wf_write h a.isLt) (a + 1#16).isLt

/-- A store keeps the canonical form of the set of written addresses. -/
theorem State.written_wf_storeWord {s : State} (a v : Word) (h : AddrSet.wf s.written = true) :
    AddrSet.wf (s.storeWord a v).written = true :=
  AddrSet.wf_insert (AddrSet.wf_insert h a.isLt) (a + 1#16).isLt

theorem State.reset_mem_wf : State.reset.mem.wf = true := rfl

/-! ## Bytes after a store -/

theorem word_add_one_ne (a : Word) : a + 1#16 ≠ a := by simp

/-- The bytes of memory after a store: the high byte at `a`, the low byte at `a + 1`, the others as before (R45). -/
theorem State.byte_storeWord (s : State) (a v c : Word) :
    (s.storeWord a v).byte c = if c = a + 1#16 then lowByte v else if c = a then highByte v else s.byte c := by
  simp only [State.byte, State.storeWord_mem, Memory.read_write, BitVec.toNat_inj]

/-- The written addresses after a store: the two stored ones and the old ones (R45). -/
theorem State.isWritten_storeWord (s : State) (a v c : Word) :
    (s.storeWord a v).isWritten c = (s.isWritten c || c == a || c == a + 1#16) := by
  rw [Bool.eq_iff_iff]
  simp only [State.isWritten, State.storeWord_written, AddrSet.mem_insert, BitVec.toNat_inj, decide_eq_true_eq,
    Bool.or_eq_true, beq_iff_eq]
  tauto

end Sys2Proof.Machine
end

