-- ==== Sys2Proof/Laws/Ops.lean ====
section
/-! SUPPORT. For each shared operation, once, everything it can do. -/

namespace Sys2Proof.Machine

/-- A register-writing instruction always goes on, with the register written and pc advanced. -/
theorem writeReg_eq_next {rd : RegNo} {v : Word} {s t : State} :
    writeReg rd v s = .next t ↔ t = (s.setReg rd v).advance := by
  simp only [writeReg, Host.Outcome.next.injEq]; exact eq_comm

/-- A branch always goes on, to its target if taken and to the next instruction if not. -/
theorem branchIf_eq_next {b : Bool} {imm : Int} {s t : State} :
    branchIf b imm s = .next t ↔ t = s.goto (if b then relativeTarget s imm else s.nextPc) := by
  simp only [branchIf, Host.Outcome.next.injEq]; exact eq_comm

/-- A linking jump always goes on, with R7 and pc written. -/
theorem linkAndGoto_eq_next {p : Word} {s t : State} :
    linkAndGoto p s = .next t ↔ t = (s.setReg linkReg s.nextPc).goto p := by
  simp only [linkAndGoto, Host.Outcome.next.injEq]; exact eq_comm

/-- A read answers the word at an even address and faults at an odd one (R44). -/
theorem memRead_cases (s : State) (a : Word) :
    (isOdd a = false ∧ memRead s a = .ok (s.word a)) ∨ (isOdd a = true ∧ memRead s a = .error (.misalignedData a)) := by
  cases h : isOdd a <;> simp [memRead, h]

/-- A write stores the word at an even address and faults at an odd one (R45). -/
theorem memWrite_cases (s : State) (a v : Word) :
    (isOdd a = false ∧ memWrite s a v = .ok (s.storeWord a v)) ∨
    (isOdd a = true ∧ memWrite s a v = .error (.misalignedData a)) := by
  cases h : isOdd a <;> simp [memWrite, h]

/-- A fetch that answers, answers the word at an even pc that no store has written (R46, R48). -/
theorem fetch_eq_ok {s : State} {w : Word} :
    fetch s = .ok w ↔
      isOdd s.pc = false ∧ s.isWritten s.pc = false ∧ s.isWritten (s.pc + 1#16) = false ∧ w = s.word s.pc := by
  cases h : isOdd s.pc <;> cases h1 : s.isWritten s.pc <;> cases h2 : s.isWritten (s.pc + 1#16) <;>
    simp [fetch, h, h1, h2, eq_comm]

/-- `siic` with exception support takes the exception (R180). -/
theorem siicUnder_true (s : State) : siicUnder true s = .next s.takeIllegalOp := rfl

/-- `siic` without exception support is refused (R182). -/
theorem siicUnder_false (s : State) : siicUnder false s = .refused (.unsupported "siic") := rfl

/-- RTI with exception support goes to epc (R181). -/
theorem rtiUnder_true (s : State) : rtiUnder true s = .next (s.goto s.epc) := rfl

/-- RTI without exception support is NOP (R182). -/
theorem rtiUnder_false (s : State) : rtiUnder false s = .next s.advance := rfl

/-- The halted pc is one of the two of the draw (R100). -/
theorem State.haltPc_mem (s : State) : s.haltPc = s.pc ∨ s.haltPc = s.nextPc := by
  unfold State.haltPc; split
  · exact .inr rfl
  · exact .inl rfl

/-- A step that goes on ran the instruction it fetched, on a machine that is not halted (R27). -/
theorem step_eq_next {s t : State} (h : step s = .next t) :
    s.halted = false ∧ ∃ w, fetch s = .ok w ∧ exec (decodeWord w) s = .next t := by
  unfold step at h
  split at h
  · cases h
  · rename_i hh
    split at h
    · cases h
    · rename_i w hw
      exact ⟨by simpa using hh, w, hw, h⟩

end Sys2Proof.Machine
end

