-- ==== Sys2Proof/Laws/Exec.lean ====
section
/-! SUPPORT. What an instruction can do to the state, said once over all instructions. -/

namespace Sys2Proof.Machine

/-- The shapes of a next state, with the values left open: a register and the default pc; a pc alone; the link register
and a pc; a store; a store and a register; the exception; the halt. -/
inductive NextShape (s t : State) : Prop where
  | register (rd : RegNo) (v : Word) (h : t = (s.setReg rd v).advance)
  | goes (p : Word) (h : t = s.goto p)
  | links (p : Word) (h : t = (s.setReg linkReg s.nextPc).goto p)
  | stores (a v : Word) (even : isOdd a = false) (h : t = (s.storeWord a v).advance)
  | storesAndUpdates (a v : Word) (r : RegNo) (even : isOdd a = false) (h : t = ((s.storeWord a v).setReg r a).advance)
  | takesIllegalOp (h : t = s.takeIllegalOp)
  | halts (h : t = s.halt)

theorem execSt_eq_next {rd rs : RegNo} {imm : Int} {s t : State} :
    execSt rd rs imm s = .next t ↔
      isOdd (effectiveAddress s rs imm) = false ∧ t = (s.storeWord (effectiveAddress s rs imm) (s.reg rd)).advance := by
  unfold execSt
  rcases memWrite_cases s (effectiveAddress s rs imm) (s.reg rd) with ⟨h, e⟩ | ⟨h, e⟩ <;>
    simp [e, h, eq_comm]

theorem execLd_eq_next {rd rs : RegNo} {imm : Int} {s t : State} :
    execLd rd rs imm s = .next t ↔
      isOdd (effectiveAddress s rs imm) = false ∧ t = (s.setReg rd (s.word (effectiveAddress s rs imm))).advance := by
  unfold execLd
  rcases memRead_cases s (effectiveAddress s rs imm) with ⟨h, e⟩ | ⟨h, e⟩ <;>
    simp [e, h, writeReg_eq_next]

theorem stuUnder_eq_next {u : StuUpdate} {rd rs : RegNo} {imm : Int} {s t : State} :
    stuUnder u rd rs imm s = .next t ↔
      isOdd (effectiveAddress s rs imm) = false ∧
      t = ((s.storeWord (effectiveAddress s rs imm) (s.reg rd)).setReg (stuTarget u rd rs)
        (effectiveAddress s rs imm)).advance := by
  unfold stuUnder
  rcases memWrite_cases s (effectiveAddress s rs imm) (s.reg rd) with ⟨h, e⟩ | ⟨h, e⟩ <;>
    simp [e, h, writeReg_eq_next]

/-- Every next state of every instruction has one of the shapes. -/
theorem exec_nextShape {i : Instr} {s t : State} (h : exec i s = .next t) : NextShape s t := by
  cases i with
  | halt => exact .halts (by cases h; rfl)
  | nop => exact .goes _ (by cases h; rfl)
  | siic rs => exact .takesIllegalOp (by cases h; rfl)
  | rti => exact .goes _ (by cases h; rfl)
  | j disp => exact .goes _ (by cases h; rfl)
  | jr rs imm => exact .goes _ (by cases h; rfl)
  | jal disp => exact .links _ (linkAndGoto_eq_next.mp h)
  | jalr rs imm => exact .links _ (linkAndGoto_eq_next.mp h)
  | beqz rs imm => exact .goes _ (branchIf_eq_next.mp h)
  | bnez rs imm => exact .goes _ (branchIf_eq_next.mp h)
  | bltz rs imm => exact .goes _ (branchIf_eq_next.mp h)
  | bgez rs imm => exact .goes _ (branchIf_eq_next.mp h)
  | st rd rs imm => exact .stores _ _ (execSt_eq_next.mp h).1 (execSt_eq_next.mp h).2
  | ld rd rs imm => exact .register _ _ (execLd_eq_next.mp h).2
  | stu rd rs imm => exact .storesAndUpdates _ _ _ (stuUnder_eq_next.mp h).1 (stuUnder_eq_next.mp h).2
  | addi | subi | xori | andni | slbi | roli | slli | rori | srli | lbi | btr | rol | sll | ror | srl | add | sub | xor
  | andn | seq | slt | sle | sco => exact .register _ _ (writeReg_eq_next.mp h)

end Sys2Proof.Machine
end

