-- ==== Sys2Proof/Laws/PerInstr.lean ====
section
/-! SUPPORT. Facts of every instruction, one lemma per constructor. -/

namespace Sys2Proof.Laws

/-- The word that the encoder builds is the instruction of the row of the opcode map that has its mnemonic (30_encoding.md
R70, R78), whatever its operands. -/
def OpcodeOfRow.Statement (i : Instr) : Prop :=
  ∃ r ∈ opcodeMap, r.mnemonic = i.mnemonic ∧ r.matchesWord (encodeWord i) = true

/-- A row that asks for the opcode alone. -/
theorem matchesWord_of_opcode {w p : Word} {m : String} (h : (opcodeField w ++ 0#11 : Word) = p) :
    OpcodeRow.matchesWord ⟨m, 0xF800, p⟩ w = true := by
  simp only [OpcodeRow.matchesWord, beq_iff_eq]
  exact (and_opcodeMask w).trans h

/-- A row that asks for the opcode and the function bits. -/
theorem matchesWord_of_opcode_funct {w p : Word} {m : String}
    (h : (opcodeField w ++ 0#9 ++ functField w : Word) = p) : OpcodeRow.matchesWord ⟨m, 0xF803, p⟩ w = true := by
  simp only [OpcodeRow.matchesWord, beq_iff_eq]
  exact (and_opcodeFunctMask w).trans h

theorem OpcodeOfRow.halt : OpcodeOfRow.Statement .halt :=
  ⟨⟨"HALT", 0xF800, 0x0000⟩, by decide, rfl, matchesWord_of_opcode (by simp only [encodeWord, opcodeField_wordS]; rfl)⟩

theorem OpcodeOfRow.nop : OpcodeOfRow.Statement .nop :=
  ⟨⟨"NOP", 0xF800, 0x0800⟩, by decide, rfl, matchesWord_of_opcode (by simp only [encodeWord, opcodeField_wordS]; rfl)⟩

theorem OpcodeOfRow.siic (rs : RegNo) : OpcodeOfRow.Statement (.siic rs) :=
  ⟨⟨"siic", 0xF800, 0x1000⟩, by decide, rfl, matchesWord_of_opcode (by simp only [encodeWord, opcodeField_wordSiic]; rfl)⟩

theorem OpcodeOfRow.rti : OpcodeOfRow.Statement .rti :=
  ⟨⟨"RTI", 0xF800, 0x1800⟩, by decide, rfl, matchesWord_of_opcode (by simp only [encodeWord, opcodeField_wordS]; rfl)⟩

theorem OpcodeOfRow.j (disp : Int) : OpcodeOfRow.Statement (.j disp) :=
  ⟨⟨"J", 0xF800, 0x2000⟩, by decide, rfl, matchesWord_of_opcode (by simp only [encodeWord, opcodeField_wordJ]; rfl)⟩

theorem OpcodeOfRow.jr (rs : RegNo) (imm : Int) : OpcodeOfRow.Statement (.jr rs imm) :=
  ⟨⟨"JR", 0xF800, 0x2800⟩, by decide, rfl, matchesWord_of_opcode (by simp only [encodeWord, opcodeField_wordI2]; rfl)⟩

theorem OpcodeOfRow.jal (disp : Int) : OpcodeOfRow.Statement (.jal disp) :=
  ⟨⟨"JAL", 0xF800, 0x3000⟩, by decide, rfl, matchesWord_of_opcode (by simp only [encodeWord, opcodeField_wordJ]; rfl)⟩

theorem OpcodeOfRow.jalr (rs : RegNo) (imm : Int) : OpcodeOfRow.Statement (.jalr rs imm) :=
  ⟨⟨"JALR", 0xF800, 0x3800⟩, by decide, rfl, matchesWord_of_opcode (by simp only [encodeWord, opcodeField_wordI2]; rfl)⟩

theorem OpcodeOfRow.addi (rd rs : RegNo) (imm : Int) : OpcodeOfRow.Statement (.addi rd rs imm) :=
  ⟨⟨"ADDI", 0xF800, 0x4000⟩, by decide, rfl, matchesWord_of_opcode (by simp only [encodeWord, opcodeField_wordI1]; rfl)⟩

theorem OpcodeOfRow.subi (rd rs : RegNo) (imm : Int) : OpcodeOfRow.Statement (.subi rd rs imm) :=
  ⟨⟨"SUBI", 0xF800, 0x4800⟩, by decide, rfl, matchesWord_of_opcode (by simp only [encodeWord, opcodeField_wordI1]; rfl)⟩

theorem OpcodeOfRow.xori (rd rs : RegNo) (imm : Nat) : OpcodeOfRow.Statement (.xori rd rs imm) :=
  ⟨⟨"XORI", 0xF800, 0x5000⟩, by decide, rfl, matchesWord_of_opcode (by simp only [encodeWord, opcodeField_wordI1]; rfl)⟩

theorem OpcodeOfRow.andni (rd rs : RegNo) (imm : Nat) : OpcodeOfRow.Statement (.andni rd rs imm) :=
  ⟨⟨"ANDNI", 0xF800, 0x5800⟩, by decide, rfl, matchesWord_of_opcode (by simp only [encodeWord, opcodeField_wordI1]; rfl)⟩

theorem OpcodeOfRow.beqz (rs : RegNo) (imm : Int) : OpcodeOfRow.Statement (.beqz rs imm) :=
  ⟨⟨"BEQZ", 0xF800, 0x6000⟩, by decide, rfl, matchesWord_of_opcode (by simp only [encodeWord, opcodeField_wordI2]; rfl)⟩

theorem OpcodeOfRow.bnez (rs : RegNo) (imm : Int) : OpcodeOfRow.Statement (.bnez rs imm) :=
  ⟨⟨"BNEZ", 0xF800, 0x6800⟩, by decide, rfl, matchesWord_of_opcode (by simp only [encodeWord, opcodeField_wordI2]; rfl)⟩

theorem OpcodeOfRow.bltz (rs : RegNo) (imm : Int) : OpcodeOfRow.Statement (.bltz rs imm) :=
  ⟨⟨"BLTZ", 0xF800, 0x7000⟩, by decide, rfl, matchesWord_of_opcode (by simp only [encodeWord, opcodeField_wordI2]; rfl)⟩

theorem OpcodeOfRow.bgez (rs : RegNo) (imm : Int) : OpcodeOfRow.Statement (.bgez rs imm) :=
  ⟨⟨"BGEZ", 0xF800, 0x7800⟩, by decide, rfl, matchesWord_of_opcode (by simp only [encodeWord, opcodeField_wordI2]; rfl)⟩

theorem OpcodeOfRow.st (rd rs : RegNo) (imm : Int) : OpcodeOfRow.Statement (.st rd rs imm) :=
  ⟨⟨"ST", 0xF800, 0x8000⟩, by decide, rfl, matchesWord_of_opcode (by simp only [encodeWord, opcodeField_wordI1]; rfl)⟩

theorem OpcodeOfRow.ld (rd rs : RegNo) (imm : Int) : OpcodeOfRow.Statement (.ld rd rs imm) :=
  ⟨⟨"LD", 0xF800, 0x8800⟩, by decide, rfl, matchesWord_of_opcode (by simp only [encodeWord, opcodeField_wordI1]; rfl)⟩

theorem OpcodeOfRow.slbi (rs : RegNo) (imm : Nat) : OpcodeOfRow.Statement (.slbi rs imm) :=
  ⟨⟨"SLBI", 0xF800, 0x9000⟩, by decide, rfl, matchesWord_of_opcode (by simp only [encodeWord, opcodeField_wordI2]; rfl)⟩

theorem OpcodeOfRow.stu (rd rs : RegNo) (imm : Int) : OpcodeOfRow.Statement (.stu rd rs imm) :=
  ⟨⟨"STU", 0xF800, 0x9800⟩, by decide, rfl, matchesWord_of_opcode (by simp only [encodeWord, opcodeField_wordI1]; rfl)⟩

theorem OpcodeOfRow.roli (rd rs : RegNo) (amount : Nat) : OpcodeOfRow.Statement (.roli rd rs amount) :=
  ⟨⟨"ROLI", 0xF800, 0xA000⟩, by decide, rfl, matchesWord_of_opcode (by simp only [encodeWord, opcodeField_wordI1]; rfl)⟩

theorem OpcodeOfRow.slli (rd rs : RegNo) (amount : Nat) : OpcodeOfRow.Statement (.slli rd rs amount) :=
  ⟨⟨"SLLI", 0xF800, 0xA800⟩, by decide, rfl, matchesWord_of_opcode (by simp only [encodeWord, opcodeField_wordI1]; rfl)⟩

theorem OpcodeOfRow.rori (rd rs : RegNo) (amount : Nat) : OpcodeOfRow.Statement (.rori rd rs amount) :=
  ⟨⟨"RORI", 0xF800, 0xB000⟩, by decide, rfl, matchesWord_of_opcode (by simp only [encodeWord, opcodeField_wordI1]; rfl)⟩

theorem OpcodeOfRow.srli (rd rs : RegNo) (amount : Nat) : OpcodeOfRow.Statement (.srli rd rs amount) :=
  ⟨⟨"SRLI", 0xF800, 0xB800⟩, by decide, rfl, matchesWord_of_opcode (by simp only [encodeWord, opcodeField_wordI1]; rfl)⟩

theorem OpcodeOfRow.lbi (rs : RegNo) (imm : Int) : OpcodeOfRow.Statement (.lbi rs imm) :=
  ⟨⟨"LBI", 0xF800, 0xC000⟩, by decide, rfl, matchesWord_of_opcode (by simp only [encodeWord, opcodeField_wordI2]; rfl)⟩

theorem OpcodeOfRow.btr (rd rs : RegNo) : OpcodeOfRow.Statement (.btr rd rs) :=
  ⟨⟨"BTR", 0xF800, 0xC800⟩, by decide, rfl, matchesWord_of_opcode (by simp only [encodeWord, opcodeField_wordR]; rfl)⟩

theorem OpcodeOfRow.rol (rd rs rt : RegNo) : OpcodeOfRow.Statement (.rol rd rs rt) :=
  ⟨⟨"ROL", 0xF803, 0xD000⟩, by decide, rfl, matchesWord_of_opcode_funct (by simp only [encodeWord, opcodeField_wordR, functField_wordR]; rfl)⟩

theorem OpcodeOfRow.sll (rd rs rt : RegNo) : OpcodeOfRow.Statement (.sll rd rs rt) :=
  ⟨⟨"SLL", 0xF803, 0xD001⟩, by decide, rfl, matchesWord_of_opcode_funct (by simp only [encodeWord, opcodeField_wordR, functField_wordR]; rfl)⟩

theorem OpcodeOfRow.ror (rd rs rt : RegNo) : OpcodeOfRow.Statement (.ror rd rs rt) :=
  ⟨⟨"ROR", 0xF803, 0xD002⟩, by decide, rfl, matchesWord_of_opcode_funct (by simp only [encodeWord, opcodeField_wordR, functField_wordR]; rfl)⟩

theorem OpcodeOfRow.srl (rd rs rt : RegNo) : OpcodeOfRow.Statement (.srl rd rs rt) :=
  ⟨⟨"SRL", 0xF803, 0xD003⟩, by decide, rfl, matchesWord_of_opcode_funct (by simp only [encodeWord, opcodeField_wordR, functField_wordR]; rfl)⟩

theorem OpcodeOfRow.add (rd rs rt : RegNo) : OpcodeOfRow.Statement (.add rd rs rt) :=
  ⟨⟨"ADD", 0xF803, 0xD800⟩, by decide, rfl, matchesWord_of_opcode_funct (by simp only [encodeWord, opcodeField_wordR, functField_wordR]; rfl)⟩

theorem OpcodeOfRow.sub (rd rs rt : RegNo) : OpcodeOfRow.Statement (.sub rd rs rt) :=
  ⟨⟨"SUB", 0xF803, 0xD801⟩, by decide, rfl, matchesWord_of_opcode_funct (by simp only [encodeWord, opcodeField_wordR, functField_wordR]; rfl)⟩

theorem OpcodeOfRow.xor (rd rs rt : RegNo) : OpcodeOfRow.Statement (.xor rd rs rt) :=
  ⟨⟨"XOR", 0xF803, 0xD802⟩, by decide, rfl, matchesWord_of_opcode_funct (by simp only [encodeWord, opcodeField_wordR, functField_wordR]; rfl)⟩

theorem OpcodeOfRow.andn (rd rs rt : RegNo) : OpcodeOfRow.Statement (.andn rd rs rt) :=
  ⟨⟨"ANDN", 0xF803, 0xD803⟩, by decide, rfl, matchesWord_of_opcode_funct (by simp only [encodeWord, opcodeField_wordR, functField_wordR]; rfl)⟩

theorem OpcodeOfRow.seq (rd rs rt : RegNo) : OpcodeOfRow.Statement (.seq rd rs rt) :=
  ⟨⟨"SEQ", 0xF800, 0xE000⟩, by decide, rfl, matchesWord_of_opcode (by simp only [encodeWord, opcodeField_wordR]; rfl)⟩

theorem OpcodeOfRow.slt (rd rs rt : RegNo) : OpcodeOfRow.Statement (.slt rd rs rt) :=
  ⟨⟨"SLT", 0xF800, 0xE800⟩, by decide, rfl, matchesWord_of_opcode (by simp only [encodeWord, opcodeField_wordR]; rfl)⟩

theorem OpcodeOfRow.sle (rd rs rt : RegNo) : OpcodeOfRow.Statement (.sle rd rs rt) :=
  ⟨⟨"SLE", 0xF800, 0xF000⟩, by decide, rfl, matchesWord_of_opcode (by simp only [encodeWord, opcodeField_wordR]; rfl)⟩

theorem OpcodeOfRow.sco (rd rs rt : RegNo) : OpcodeOfRow.Statement (.sco rd rs rt) :=
  ⟨⟨"SCO", 0xF800, 0xF800⟩, by decide, rfl, matchesWord_of_opcode (by simp only [encodeWord, opcodeField_wordR]; rfl)⟩

end Sys2Proof.Laws
end

