-- ==== Sys2Proof/Laws/Step.lean ====
section
/-! SUPPORT. The step runs the instruction that `State.withFetchWord` places, from every state; and a run, step by step. -/

namespace Sys2Proof.Machine

theorem isOdd_clearBit0 (a : Word) : isOdd (a &&& 0xFFFE#16) = false := by
  simp [isOdd]

theorem evenAddress_succ_ne (a : Word) : (a + 1#16).toNat ≠ a.toNat := by
  rw [ne_eq, BitVec.toNat_inj]; exact word_add_one_ne a

/-- The placed instruction is fetched. -/
theorem fetch_withFetchWord (s : State) (nbits w : Nat) :
    fetch (s.withFetchWord nbits w) = .ok (tableWord nbits w) := by
  refine fetch_eq_ok.mpr ⟨isOdd_clearBit0 s.pc, ?_, ?_, ?_⟩
  · simp [State.isWritten, State.withFetchWord]
  · simp [State.isWritten, State.withFetchWord]
  · simp only [State.word, State.byte, State.withFetchWord, Memory.read_write, if_true, evenAddress_succ_ne,
      if_false, (evenAddress_succ_ne _).symm, wordOfBytes_bytes]

/-- The placed instruction is what the next step runs. -/
theorem step_withFetchWord (s : State) (nbits w : Nat) :
    step (s.withFetchWord nbits w) = exec (decodeWord (tableWord nbits w)) (s.withFetchWord nbits w) := by
  have hh : (s.withFetchWord nbits w).halted = false := rfl
  simp only [step, hh, Bool.false_eq_true, if_false, fetch_withFetchWord]

/-- No step: the state itself. -/
theorem run_zero (s : State) : Sys2Proof.core.run 0 s = .next s := rfl

/-- A run that goes on took its first step and then ran from there, on any machine. -/
theorem coreRun_succ_eq_next (M : Host.Core) {k : Nat} {s u : M.State} :
    M.run (k + 1) s = .next u ↔ ∃ t, M.step s = .next t ∧ M.run k t = .next u := by
  rw [Host.Core.run]
  cases M.step s <;> simp

/-- A run that goes on took its first step and then ran from there. -/
theorem run_succ_eq_next {k : Nat} {s u : State} :
    Sys2Proof.core.run (k + 1) s = .next u ↔ ∃ t, step s = .next t ∧ Sys2Proof.core.run k t = .next u :=
  coreRun_succ_eq_next Sys2Proof.core

end Sys2Proof.Machine
end

