-- ==== Sys2Proof/Tests/Slice0.lean ====
section
/-! SUPPORT. Tests on fixed values, each from the spec's own words, vectors (95_test_vectors.md section 2, named by row) or
examples; and, for every statement with hypotheses, a state and operands that meet them. -/

namespace Sys2Proof.Tests

open Sys2Proof.Machine

/-! ## Ill-formed operands are refused (30_encoding.md R76) -/

theorem test_signed5_range : (Instr.addi 0 0 (-17)).wellFormed = false ∧ (Instr.addi 0 0 (-16)).wellFormed = true ∧
    (Instr.stu 0 0 15).wellFormed = true ∧ (Instr.stu 0 0 16).wellFormed = false := by decide
theorem test_unsigned5_range : (Instr.xori 0 0 31).wellFormed = true ∧ (Instr.andni 0 0 32).wellFormed = false := by
  decide
theorem test_amount_range : (Instr.roli 0 0 15).wellFormed = true ∧ (Instr.srli 0 0 16).wellFormed = false := by decide
theorem test_signed8_range : (Instr.lbi 0 (-128)).wellFormed = true ∧ (Instr.lbi 0 128).wellFormed = false ∧
    (Instr.beqz 0 127).wellFormed = true ∧ (Instr.jalr 0 (-129)).wellFormed = false := by decide
theorem test_unsigned8_range : (Instr.slbi 0 255).wellFormed = true ∧ (Instr.slbi 0 256).wellFormed = false := by decide
theorem test_signed11_range : (Instr.j (-1024)).wellFormed = true ∧ (Instr.j (-1025)).wellFormed = false ∧
    (Instr.jal 1023).wellFormed = true ∧ (Instr.jal 1024).wellFormed = false := by decide
theorem test_encoder_refuses_out_of_range : encode (.addi 1 2 16) = none ∧ encode (.roli 1 2 16) = none := by decide

/-! ## Words written out from the spec decode, and encode back (95_test_vectors.md section 2.11, R70, R78) -/

/-- A word and its instruction, in both directions. -/
def agrees (w : Word) (i : Instr) : Bool := decodeWord w == i && encode i == some w

theorem test_words_halt_nop : agrees 0b0000000000000000#16 .halt ∧ agrees 0b0000100000000000#16 .nop := by decide
theorem test_words_exception : agrees 0b0001001000000000#16 (.siic 2) ∧ agrees 0b0001100000000000#16 .rti := by decide
theorem test_words_jumps : agrees 0x27FE (.j (-2)) ∧ agrees 0x2F00 (.jr 7 0) ∧ agrees 0x33FE (.jal 1022) ∧
    agrees 0x3CFA (.jalr 4 (-6)) := by decide
theorem test_words_alu_immediate : agrees 0b0100001000111101#16 (.addi 1 2 (-3)) ∧ agrees 0x4C65 (.subi 3 4 5) ∧
    agrees 0x513F (.xori 1 1 0x1F) ∧ agrees 0x5A4F (.andni 2 2 0x0F) := by decide
theorem test_words_shift_immediate : agrees 0xA224 (.roli 1 2 4) ∧ agrees 0xAA2F (.slli 1 2 15) ∧
    agrees 0xB221 (.rori 1 2 1) ∧ agrees 0xB8EF (.srli 7 0 15) := by decide
theorem test_words_branches : agrees 0x61FC (.beqz 1 (-4)) ∧ agrees 0x6906 (.bnez 1 6) ∧ agrees 0x727E (.bltz 2 126) ∧
    agrees 0x7A80 (.bgez 2 (-128)) := by decide
theorem test_words_memory : agrees 0x823E (.st 1 2 (-2)) ∧ agrees 0x8A7E (.ld 3 2 (-2)) ∧ agrees 0x9A24 (.stu 1 2 4) := by
  decide
theorem test_words_load_immediate : agrees 0xC3FF (.lbi 3 (-1)) ∧ agrees 0x9380 (.slbi 3 0x80) := by decide
theorem test_words_btr_shifts : agrees 0xCE14 (.btr 5 6) ∧ agrees 0xD264 (.rol 1 2 3) ∧ agrees 0xD265 (.sll 1 2 3) ∧
    agrees 0xD266 (.ror 1 2 3) ∧ agrees 0xD267 (.srl 1 2 3) := by decide
theorem test_words_arithmetic : agrees 0b1101101001100100#16 (.add 1 2 3) ∧ agrees 0xDA65 (.sub 1 2 3) ∧
    agrees 0xDA66 (.xor 1 2 3) ∧ agrees 0xDA67 (.andn 1 2 3) := by decide
theorem test_words_set : agrees 0xE264 (.seq 1 2 3) ∧ agrees 0xEA64 (.slt 1 2 3) ∧ agrees 0xF264 (.sle 1 2 3) ∧
    agrees 0xFA64 (.sco 1 2 3) := by decide
/-- Don't-care bits set (R71; 95_test_vectors.md sections 2.4, 2.5, 2.11). -/
theorem test_words_dont_care : decodeWord 0x07FF = .halt ∧ decodeWord 0x0FFF = .nop ∧ decodeWord 0x1234 = .siic 2 ∧
    decodeWord 0x1FFF = .rti ∧ decodeWord 0xCEF7 = .btr 5 6 ∧ decodeWord 0xF267 = .sle 1 2 3 ∧
    decodeWord 0xAA34 = .slli 1 2 4 := by decide
theorem test_decode_bytes : decode [0x42, 0x3D, 0x00] = .ok (.addi 1 2 (-3), [0x00]) ∧ decode [0x42] = .error .truncated ∧
    decode [] = .error .truncated := ⟨rfl, rfl, rfl⟩
theorem test_decodeTableWord : decodeTableWord 16 0xDA64 = some (.add 1 2 3) := by decide

/-! ## One instruction at a time (95_test_vectors.md sections 2.1 to 2.9) -/

/-- A state at a pc with two registers set. -/
def at2 (pc : Word) (r : RegNo) (v : Word) (q : RegNo) (u : Word) : State :=
  ((State.reset.goto pc).setReg r v).setReg q u

/-- A register of the next state. -/
def regOf (o : Result) (r : RegNo) : Option Word := match o with | .next t => some (t.reg r) | _ => none
/-- The pc of the next state. -/
def pcOf (o : Result) : Option Word := match o with | .next t => some t.pc | _ => none
/-- The epc of the next state. -/
def epcOf (o : Result) : Option Word := match o with | .next t => some t.epc | _ => none
/-- Two bytes of the next state. -/
def wordOf (o : Result) (a : Word) : Option Word := match o with | .next t => some (t.byte a ++ t.byte (a + 1)) | _ => none
/-- The fault. -/
def faultOf (o : Result) : Option Fault := match o with | .fault f => some f | _ => none

/-- An I-format 1 or BTR vector: Rs = R2, Rd = R1. -/
def imm1 (i : RegNo → RegNo → Instr) (rs : Word) : Option Word := regOf (exec (i 1 2) (at2 0x0100 1 0x5555 2 rs)) 1
/-- An R-format vector: Rs = R2, Rt = R3, Rd = R1. -/
def reg3 (i : RegNo → RegNo → RegNo → Instr) (rs rt : Word) : Option Word :=
  regOf (exec (i 1 2 3) (at2 0x0100 2 rs 3 rt)) 1

theorem test_addi : imm1 (.addi · · (-3)) 0x0005 = some 0x0002 ∧ imm1 (.addi · · 15) 0x7FFF = some 0x800E ∧
    imm1 (.addi · · 1) 0xFFFF = some 0x0000 := by decide
theorem test_subi : imm1 (.subi · · 5) 0x0007 = some 0xFFFE ∧ imm1 (.subi · · (-16)) 0x0001 = some 0xFFEF := by decide
theorem test_xori : imm1 (.xori · · 0x1F) 0xFFFF = some 0xFFE0 ∧ imm1 (.xori · · 0x10) 0x0000 = some 0x0010 := by decide
theorem test_andni : imm1 (.andni · · 0x0F) 0xFFFF = some 0xFFF0 ∧ imm1 (.andni · · 0x1F) 0x1234 = some 0x1220 := by
  decide
theorem test_roli : imm1 (.roli · · 4) 0x1234 = some 0x2341 ∧ imm1 (.roli · · 15) 0x8001 = some 0xC000 := by decide
theorem test_slli : imm1 (.slli · · 15) 0xFFFF = some 0x8000 ∧ imm1 (.slli · · 8) 0x00FF = some 0xFF00 := by decide
theorem test_rori : imm1 (.rori · · 4) 0x1234 = some 0x4123 ∧ imm1 (.rori · · 15) 0x8000 = some 0x0001 := by decide
theorem test_srli : imm1 (.srli · · 1) 0x8000 = some 0x4000 ∧ imm1 (.srli · · 4) 0xF00F = some 0x0F00 := by decide
theorem test_btr : imm1 .btr 0x1234 = some 0x2C48 ∧ imm1 .btr 0x0001 = some 0x8000 := by decide
theorem test_add : reg3 .add 0x7FFF 0x0001 = some 0x8000 ∧ reg3 .add 0xFFFF 0x0001 = some 0x0000 := by decide
theorem test_sub : reg3 .sub 0x0003 0x000A = some 0x0007 ∧ reg3 .sub 0x000A 0x0003 = some 0xFFF9 := by decide
theorem test_xor : reg3 .xor 0xFF00 0x0FF0 = some 0xF0F0 := by decide
theorem test_andn : reg3 .andn 0xFFFF 0x00FF = some 0xFF00 ∧ reg3 .andn 0x00FF 0xFFFF = some 0x0000 := by decide
theorem test_rol : reg3 .rol 0x1234 0xFFF4 = some 0x2341 ∧ reg3 .rol 0x1234 0x0010 = some 0x1234 := by decide
theorem test_sll : reg3 .sll 0x0001 0x0010 = some 0x0001 ∧ reg3 .sll 0xFFFF 0x0024 = some 0xFFF0 := by decide
theorem test_ror : reg3 .ror 0x0001 0x0001 = some 0x8000 ∧ reg3 .ror 0x1234 0x0008 = some 0x3412 := by decide
theorem test_srl : reg3 .srl 0x8000 0x000F = some 0x0001 ∧ reg3 .srl 0xFFFF 0x0011 = some 0x7FFF := by decide
theorem test_seq : reg3 .seq 0x0005 0x0005 = some 1 ∧ reg3 .seq 0xFFFF 0x0001 = some 0 := by decide
theorem test_slt : reg3 .slt 0x8000 0x7FFF = some 1 ∧ reg3 .slt 0x7FFF 0x8000 = some 0 ∧
    reg3 .slt 0xFFFF 0x0001 = some 1 := by decide
theorem test_sle : reg3 .sle 0x7FFF 0x8000 = some 0 ∧ reg3 .sle 0x8000 0x8000 = some 1 := by decide
theorem test_sco : reg3 .sco 0xFFFF 0x0001 = some 1 ∧ reg3 .sco 0x7FFF 0x8000 = some 0 := by decide
/-- The destination is also a source (section 2.5). -/
theorem test_slt_into_its_source : regOf (exec (.slt 2 2 3) (at2 0x0100 2 0x0001 3 0x0002)) 2 = some 1 := by decide
theorem test_beqz : pcOf (exec (.beqz 1 (-4)) (at2 0x0100 1 0x0000 2 0)) = some 0x00FE ∧
    pcOf (exec (.beqz 1 (-4)) (at2 0x0100 1 0x0001 2 0)) = some 0x0102 := by decide
theorem test_bnez : pcOf (exec (.bnez 1 (-6)) (at2 0x0002 1 0x0001 2 0)) = some 0xFFFE ∧
    pcOf (exec (.bnez 1 6) (at2 0xFFFE 1 0x0000 2 0)) = some 0x0000 := by decide
theorem test_bltz : pcOf (exec (.bltz 1 6) (at2 0x0100 1 0x8000 2 0)) = some 0x0108 ∧
    pcOf (exec (.bltz 1 6) (at2 0x0100 1 0x7FFF 2 0)) = some 0x0102 := by decide
theorem test_bgez : pcOf (exec (.bgez 2 (-128)) (at2 0x0100 2 0x0000 1 0)) = some 0x0082 ∧
    pcOf (exec (.bgez 2 (-128)) (at2 0x0100 2 0xFFFF 1 0)) = some 0x0102 := by decide
theorem test_lbi : regOf (exec (.lbi 3 (-1)) (at2 0x0100 3 0x1234 2 0)) 3 = some 0xFFFF ∧
    regOf (exec (.lbi 3 127) (at2 0x0100 3 0x1234 2 0)) 3 = some 0x007F := by decide
theorem test_slbi : regOf (exec (.slbi 3 0x80) (at2 0x0100 3 0x12FF 2 0)) 3 = some 0xFF80 ∧
    regOf (exec (.slbi 3 0x34) (at2 0x0100 3 0x0012 2 0)) 3 = some 0x1234 := by decide
theorem test_j : pcOf (exec (.j 1022) (at2 0x0100 7 0 1 0)) = some 0x0500 ∧
    pcOf (exec (.j 4) (at2 0xFFFE 7 0 1 0)) = some 0x0004 := by decide
theorem test_jr : pcOf (exec (.jr 1 127) (at2 0x0100 1 0xFFF0 2 0)) = some 0x006F ∧
    pcOf (exec (.jr 1 (-2)) (at2 0x0100 1 0x0000 2 0)) = some 0xFFFE := by decide
theorem test_jal : regOf (exec (.jal 0) (at2 0xFFFE 7 0x5555 1 0)) 7 = some 0x0000 ∧
    pcOf (exec (.jal (-4)) (at2 0x0100 7 0x5555 1 0)) = some 0x00FE := by decide
/-- Rs = R7: the old R7 gives the target (section 2.8). -/
theorem test_jalr : pcOf (exec (.jalr 7 2) (at2 0x0100 7 0x0300 1 0)) = some 0x0302 ∧
    regOf (exec (.jalr 7 2) (at2 0x0100 7 0x0300 1 0)) 7 = some 0x0102 := by decide
theorem test_st : wordOf (exec (.st 1 2 (-2)) (at2 0x0100 1 0xBEEF 2 0x0042)) 0x0040 = some 0xBEEF ∧
    wordOf (exec (.st 1 2 15) (at2 0x0100 1 0xBEEF 2 0xFFF1)) 0x0000 = some 0xBEEF := by decide
/-- The base is also the destination (section 2.3). -/
theorem test_ld : regOf (exec (.ld 2 2 2) ((at2 0x0100 2 0x0040 1 0).storeWord 0x0042 0x8001)) 2 = some 0x8001 ∧
    faultOf (exec (.ld 3 2 15) (at2 0x0100 2 0xFFF0 1 0)) = some (.misalignedData 0xFFFF) := by decide
/-- Both readings of `STU_UPDATE_REG` (section 2.3). -/
theorem test_stu : regOf (stuUnder .rd 1 2 4 (at2 0x0100 1 0xBEEF 2 0x0040)) 1 = some 0x0044 ∧
    regOf (stuUnder .rs 1 2 4 (at2 0x0100 1 0xBEEF 2 0x0040)) 2 = some 0x0044 ∧
    wordOf (stuUnder .rd 2 2 2 (at2 0x0100 2 0x0040 1 0)) 0x0042 = some 0x0040 := by decide
theorem test_nop : pcOf (exec .nop (at2 0xFFFE 1 0 2 0)) = some 0x0000 := by decide
theorem test_halt : (match exec .halt (at2 0x000A 1 0 2 0) with | .next t => t.halted | _ => false) = true := rfl
theorem test_siic : pcOf (exec (.siic 0) (at2 0x0008 1 0 2 0)) = some 0x0002 ∧
    epcOf (exec (.siic 7) (at2 0xFFFE 1 0 2 0)) = some 0x0000 := by decide
theorem test_rti : pcOf (exec .rti { at2 0x0004 1 0 2 0 with epc := 0x000A }) = some 0x000A ∧
    pcOf (rtiUnder false { at2 0x0004 1 0 2 0 with epc := 0x000A }) = some 0x0006 := by decide

/-! ## The step (95_test_vectors.md section 2.10) -/

/-- A placed instruction: the state with a word at its pc. -/
def placed (s : State) (w : Nat) : State := s.withFetchWord 16 w

theorem test_step_runs_placed_word : regOf (step (placed State.reset 0xC105)) 1 = some 5 ∧
    pcOf (step (placed State.reset 0xC105)) = some 2 := by decide
theorem test_reset_runs_into_halt : (match step State.reset with | .next t => t.halted | _ => false) = true := rfl
theorem test_misaligned_fetch : faultOf (step (at2 0x0101 1 0 2 0)) = some (.misalignedFetch 0x0101) := by decide
/-- A store over the next instruction: the store completes, the fetch after it is stale, whatever it stored. -/
theorem test_stale_fetch :
    faultOf (step ((at2 0x0102 1 0 2 0).storeWord 0x0102 0x0800)) = some (.staleFetch 0x0102) := by decide
theorem test_halted_has_no_step : faultOf (step { State.reset with halted := true }) = some .halted := by decide

/-! ## Memory keeps its canonical form -/

theorem test_write_zero_unlists : Memory.write [(4, 0xAA), (6, 0xBB)] 4 0x00 = [(6, 0xBB)] ∧
    Memory.write [(4, 0xAA), (6, 0xBB)] 5 0xCC = [(4, 0xAA), (5, 0xCC), (6, 0xBB)] := by decide
theorem test_wf_refuses : Memory.wf [(4, 0x00)] = false ∧ Memory.wf [(4, 0x01), (4, 0x02)] = false ∧
    Memory.wf [(65536, 0x01)] = false ∧ AddrSet.wf [5, 4] = false := by decide

/-! ## The hypotheses of the statements are met -/

theorem witness_DecodeInvertsEncode : (Instr.addi 7 7 (-16)).wellFormed = true ∧ (Instr.slbi 7 255).wellFormed = true := by
  decide
theorem witness_EncoderAcceptsExactlyTheDecodable : (Instr.addi 1 2 16).wellFormed = false ∧
    (∃ w, encode (.addi 1 2 15) = some w) ∧ ∃ w, decodeWord w = .addi 1 2 15 :=
  ⟨by decide, ⟨0x422F, by decide⟩, ⟨0x422F, by decide⟩⟩
theorem witness_DontCareBitsSelectNothing :
    0x07FF#16 &&& ~~~(decodeWord 0x0000#16).dontCare = 0#16 ∧ 0x0010#16 &&& ~~~(decodeWord 0xA23F#16).dontCare = 0#16 := by
  decide
theorem witness_OpcodeMapPartitionsTheWords : (⟨"HALT", 0xF800, 0x0000⟩ : OpcodeRow) ∈ opcodeMap ∧
    OpcodeRow.matchesWord ⟨"HALT", 0xF800, 0x0000⟩ 0x07FF = true ∧
    (⟨"SCO", 0xF800, 0xF800⟩ : OpcodeRow) ∈ opcodeMap ∧ OpcodeRow.matchesWord ⟨"SCO", 0xF800, 0xF800⟩ 0xFFFF = true := by
  decide
theorem witness_ShiftAndRotateFunctionsBitByBit : (0 < 16 ∧ 15 < 16) ∧ (0 < 1 ∧ 0 < 15) := by decide
/-- Even effective addresses at both ends of memory (for ST, LD and STU). -/
theorem witness_even_effective_address :
    (effectiveAddress (at2 0x0100 2 0xFFF1 1 0xBEEF) 2 15).getLsbD 0 = false ∧
    (effectiveAddress (at2 0x0100 2 0xFFEF 1 0xBEEF) 2 15).getLsbD 0 = false ∧
    (effectiveAddress (at2 0x0100 2 0xFFEF 1 0xBEEF) 2 (15#5).toInt).getLsbD 0 = false := by decide
/-- An odd effective address, the last one of memory. -/
theorem witness_OddDataAddressesFault : (effectiveAddress (at2 0x0100 2 0xFFF0 1 0) 2 15).getLsbD 0 = true := by decide
/-- Program P4 from its siic on: the handler's ADDI runs before the RTI. -/
def inP4 : State :=
  { State.reset with pc := 0x0008, mem := [(2, 0x45), (3, 0xA1), (4, 0x18), (8, 0x10)] }
theorem witness_HandlerReturnsAfterTheSiic : ∃ a b : State, exec (.siic 0) inP4 = .next a ∧
    Sys2Proof.core.run 1 a = .next b ∧
    ∀ (j : Nat) (m : State) (w : Word) (q : RegNo), j < 1 → Sys2Proof.core.run j a = .next m → fetch m = .ok w →
      decodeWord w ≠ .siic q := by
  refine ⟨inP4.takeIllegalOp, (inP4.takeIllegalOp.setReg 5 1).advance, rfl, rfl, ?_⟩
  intro j m w q hj hm hw
  obtain rfl : j = 0 := by omega
  cases hm
  have e : fetch inP4.takeIllegalOp = .ok 0x45A1#16 := rfl
  rw [e] at hw
  cases hw
  intro h
  have h' : decodeWord 0x45A1#16 = .addi 5 5 1 := by decide
  rw [h'] at h
  cases h
theorem witness_StepRunsTheDecodedInstruction : ∃ s : State, s.halted = false ∧ s.pc.getLsbD 0 = false ∧
    s.isWritten s.pc = false ∧ s.isWritten (s.pc + 1#16) = false ∧
    decodeWord (s.byte s.pc ++ s.byte (s.pc + 1#16)) = .addi 1 2 (-3) := ⟨placed State.reset 0x423D, by decide⟩
/-- Both clauses: an odd pc, also at the top and with the byte written; an even pc with either byte written. -/
theorem witness_FetchFaultsComeFirst :
    ((at2 0xFFFF 1 0 2 0).halted = false ∧ (at2 0xFFFF 1 0 2 0).pc.getLsbD 0 = true) ∧
    (({ State.reset with written := [0] } : State).pc.getLsbD 0 = false ∧
      ({ State.reset with written := [0] } : State).isWritten 0 = true) ∧
    (({ State.reset with written := [1] } : State).pc.getLsbD 0 = false ∧
      ({ State.reset with written := [1] } : State).isWritten (0 + 1) = true) := by decide
theorem witness_NextPcOfEveryInstruction : ∃ t, exec (.beqz 1 (-4)) State.reset = .next t := ⟨_, rfl⟩
theorem witness_HaltedBitIsSetByHaltAndReadByNone : ({ State.reset with halted := true } : State).halted = true := rfl
theorem witness_OnlyMisalignedDataStopsAnInstruction :
    ∃ f, exec (.ld 1 2 1) State.reset = .fault f := ⟨.misalignedData 1, rfl⟩
theorem witness_RegisterRolesAreThoseOfTheTable : (∃ t, exec (.add 1 2 3) State.reset = .next t) ∧
    (2 : RegNo) ∉ instrWrites (.add 1 2 3) ∧ (1 : RegNo) ∉ instrReads (.add 1 2 3) ∧
    (0 : RegNo) ∉ instrReads (.add 1 2 3) := ⟨⟨_, rfl⟩, by decide, by decide, by decide⟩
theorem witness_EpcIsWrittenBySiicAndReadByRti : Instr.nop ≠ .rti ∧ (∀ q, Instr.nop ≠ .siic q) ∧
    ∃ t, exec .nop State.reset = .next t := ⟨by decide, fun _ h => Instr.noConfusion h, _, rfl⟩
theorem witness_OnlyLoadsAndStoresReachMemory :
    (∀ rd rs imm, Instr.nop ≠ .ld rd rs imm ∧ Instr.nop ≠ .st rd rs imm ∧ Instr.nop ≠ .stu rd rs imm) ∧
    (∀ rd rs imm, Instr.ld 1 2 0 ≠ .st rd rs imm ∧ Instr.ld 1 2 0 ≠ .stu rd rs imm) ∧
    ∃ t, exec (.ld 1 2 0) State.reset = .next t :=
  ⟨fun _ _ _ => ⟨Instr.noConfusion, Instr.noConfusion, Instr.noConfusion⟩,
   fun _ _ _ => ⟨Instr.noConfusion, Instr.noConfusion⟩, _, rfl⟩
/-- A store that runs: `ST R1, R2, 0` with R2 = 0x0040, an address written before and one never written. -/
def storing : State := placed { at2 0x0000 1 0xBEEF 2 0x0040 with written := [0x50] } 0x8220
theorem witness_UnwrittenBytesKeepTheImage : ∃ t, step storing = .next t ∧ storing.isWritten 0x50 = true ∧
    t.isWritten 0x60 = false := ⟨_, rfl, by decide, by decide⟩
theorem witness_NoRunChangesTheConfiguration : (∃ t, exec .halt State.reset = .next t) ∧
    ∃ t, Sys2Proof.core.run 1 storing = .next t := ⟨⟨_, rfl⟩, _, rfl⟩
/-- A run that goes on and one that halts; the stop of a halted machine. -/
theorem witness_HaltPcDrawReachesOnlyThePcAfterHalt : (∃ t, Sys2Proof.core.run 1 storing = .next t ∧ t.halted = false) ∧
    (∃ t, Sys2Proof.core.run 1 State.reset = .next t ∧ t.halted = true) ∧
    Sys2Proof.core.run 2 State.reset = .fault .halted := ⟨⟨_, rfl, rfl⟩, ⟨_, rfl, rfl⟩, rfl⟩
theorem witness_LoadsReturnTheLastStore : ∃ t, Sys2Proof.core.run 1 storing = .next t ∧
    (effectiveAddress t 2 0).getLsbD 0 = false ∧ (effectiveAddress t 2 (-2)).getLsbD 0 = false :=
  ⟨_, rfl, by decide, by decide⟩
theorem witness_SplitAndUnifiedMemoryAgree : (∀ a : Word, storing.isWritten a = false → storing.byte a = storing.byte a) ∧
    ∃ t, Sys2Proof.core.run 1 storing = .next t := ⟨fun _ _ => rfl, _, rfl⟩
theorem witness_EveryImageHasOneCanonicalMemory : Memory.wf [(0, 0x01), (65535, 0xFF)] = true := by decide
theorem witness_EveryStepKeepsTheInvariant : storing.Inv ∧ ∃ t, step storing = .next t :=
  ⟨⟨by decide, by decide, by decide⟩, _, rfl⟩
theorem witness_ResetStateAndInvariantAtReset : Memory.wf [(65535, 0xFF)] = true ∧ (0xFFFE#16).getLsbD 0 = false := by
  decide

end Sys2Proof.Tests
end

/-! # The halted bit (10_state.md R30) -/

namespace Sys2Proof.Machine

/-! ## Setting the halted bit alone -/

/-- The state with its halted bit set to `b`. -/
def State.withHalted (s : State) (b : Bool) : State := { s with halted := b }

@[simp] theorem State.reg_withHalted (s : State) (b : Bool) (q : RegNo) : (s.withHalted b).reg q = s.reg q := rfl
@[simp] theorem State.nextPc_withHalted (s : State) (b : Bool) : (s.withHalted b).nextPc = s.nextPc := rfl
@[simp] theorem relativeTarget_withHalted (s : State) (b : Bool) (imm : Int) :
    relativeTarget (s.withHalted b) imm = relativeTarget s imm := rfl
@[simp] theorem effectiveAddress_withHalted (s : State) (b : Bool) (rs : RegNo) (imm : Int) :
    effectiveAddress (s.withHalted b) rs imm = effectiveAddress s rs imm := rfl

theorem State.withHalted_setReg (s : State) (b : Bool) (r : RegNo) (v : Word) :
    (s.withHalted b).setReg r v = (s.setReg r v).withHalted b := rfl
theorem State.withHalted_goto (s : State) (b : Bool) (p : Word) :
    (s.withHalted b).goto p = (s.goto p).withHalted b := rfl
theorem State.withHalted_advance (s : State) (b : Bool) : (s.withHalted b).advance = s.advance.withHalted b := rfl
theorem State.withHalted_storeWord (s : State) (b : Bool) (a v : Word) :
    (s.withHalted b).storeWord a v = (s.storeWord a v).withHalted b := rfl
theorem State.withHalted_takeIllegalOp (s : State) (b : Bool) :
    (s.withHalted b).takeIllegalOp = s.takeIllegalOp.withHalted b := rfl

/-- HALT overwrites the bit. -/
theorem State.withHalted_halt (s : State) (b : Bool) : (s.withHalted b).halt = s.halt.withHalted true := rfl

/-! ## No shared operation reads the bit or changes it -/

theorem writeReg_withHalted (rd : RegNo) (v : Word) (s : State) (b : Bool) :
    writeReg rd v (s.withHalted b) = mapNext (·.withHalted b) (writeReg rd v s) := by
  simp only [writeReg, State.withHalted_setReg, State.withHalted_advance, mapNext]

theorem branchIf_withHalted (taken : Bool) (imm : Int) (s : State) (b : Bool) :
    branchIf taken imm (s.withHalted b) = mapNext (·.withHalted b) (branchIf taken imm s) := by
  simp only [branchIf, relativeTarget_withHalted, State.nextPc_withHalted, State.withHalted_goto, mapNext]

theorem linkAndGoto_withHalted (p : Word) (s : State) (b : Bool) :
    linkAndGoto p (s.withHalted b) = mapNext (·.withHalted b) (linkAndGoto p s) := by
  simp only [linkAndGoto, State.nextPc_withHalted, State.withHalted_setReg, State.withHalted_goto, mapNext]

theorem memRead_withHalted (s : State) (b : Bool) (a : Word) : memRead (s.withHalted b) a = memRead s a := rfl

theorem memWrite_withHalted (s : State) (b : Bool) (a v : Word) :
    memWrite (s.withHalted b) a v = (memWrite s a v).map (·.withHalted b) := by
  cases h : isOdd a with
  | false => simp [memWrite, h, State.withHalted_storeWord, Except.map]
  | true => simp [memWrite, h, Except.map]

theorem execLd_withHalted (rd rs : RegNo) (imm : Int) (s : State) (b : Bool) :
    execLd rd rs imm (s.withHalted b) = mapNext (·.withHalted b) (execLd rd rs imm s) := by
  simp only [execLd, effectiveAddress_withHalted, memRead_withHalted]
  cases memRead s (effectiveAddress s rs imm) with
  | ok v => exact writeReg_withHalted rd v s b
  | error f => rfl

theorem execSt_withHalted (rd rs : RegNo) (imm : Int) (s : State) (b : Bool) :
    execSt rd rs imm (s.withHalted b) = mapNext (·.withHalted b) (execSt rd rs imm s) := by
  simp only [execSt, effectiveAddress_withHalted, State.reg_withHalted, memWrite_withHalted]
  cases memWrite s (effectiveAddress s rs imm) (s.reg rd) with
  | ok t => exact congrArg Host.Outcome.next (t.withHalted_advance b)
  | error f => rfl

/-- STU under either reading of its updated register (log 5). -/
theorem stuUnder_withHalted (u : StuUpdate) (rd rs : RegNo) (imm : Int) (s : State) (b : Bool) :
    stuUnder u rd rs imm (s.withHalted b) = mapNext (·.withHalted b) (stuUnder u rd rs imm s) := by
  simp only [stuUnder, effectiveAddress_withHalted, State.reg_withHalted, memWrite_withHalted]
  cases memWrite s (effectiveAddress s rs imm) (s.reg rd) with
  | ok t => exact writeReg_withHalted _ _ t b
  | error f => rfl

/-! ## Every instruction -/

/-- HALT sets the bit, whatever it was. -/
theorem exec_halt_withHalted (s : State) (b : Bool) :
    exec .halt (s.withHalted b) = mapNext (·.withHalted true) (exec .halt s) :=
  congrArg Host.Outcome.next (s.withHalted_halt b)

/-- Every other instruction carries the bit through, and its outcome depends on it in no other way. -/
theorem exec_withHalted_of_ne_halt {i : Instr} (hi : i ≠ .halt) (s : State) (b : Bool) :
    exec i (s.withHalted b) = mapNext (·.withHalted b) (exec i s) := by
  cases i with
  | halt => exact absurd rfl hi
  | nop => exact congrArg Host.Outcome.next (s.withHalted_advance b)
  | siic => exact congrArg Host.Outcome.next (s.withHalted_takeIllegalOp b)
  | rti => exact congrArg Host.Outcome.next (s.withHalted_goto b s.epc)
  | j disp => exact congrArg Host.Outcome.next (s.withHalted_goto b (relativeTarget s disp))
  | jr rs imm => exact congrArg Host.Outcome.next (s.withHalted_goto b (registerTarget s rs imm))
  | jal | jalr => exact linkAndGoto_withHalted _ s b
  | beqz | bnez | bltz | bgez => exact branchIf_withHalted _ _ s b
  | st rd rs imm => exact execSt_withHalted rd rs imm s b
  | ld rd rs imm => exact execLd_withHalted rd rs imm s b
  | stu rd rs imm => exact stuUnder_withHalted _ rd rs imm s b
  | addi | subi | xori | andni | slbi | roli | slli | rori | srli | lbi | btr | rol | sll | ror | srl | add | sub | xor
  | andn | seq | slt | sle | sco => exact writeReg_withHalted _ _ s b

/-- R30: while the bit is set there is no next state. -/
theorem step_ne_next_of_halted {s : State} (h : s.halted = true) (t : State) : step s ≠ .next t := by
  intro hstep
  obtain ⟨running, -⟩ := step_eq_next hstep
  rw [h] at running
  cases running

/-- Settles O38: a step needs a clear bit, HALT sets the bit, and every other instruction carries it through unread. -/
theorem haltedBitIsSetByHaltAndReadByNone : Obligations.HaltedBitIsSetByHaltAndReadByNone := by
  refine ⟨fun s t h => step_ne_next_of_halted h t, fun i s b => ?_⟩
  by_cases hi : i = .halt
  · subst hi
    exact exec_halt_withHalted s b
  · simp only [if_neg hi]
    exact exec_withHalted_of_ne_halt hi s b

end Sys2Proof.Machine

/-! # NOP (40_halt_nop.md R101) -/

namespace Sys2Proof.Machine

/-- The J-format's opcode rule for any eleven low bits, which need not be a displacement (R61). -/
theorem opcodeField_append (op : BitVec 5) (x : BitVec 11) : opcodeField (op ++ x) = op := opcodeField_wordJ op x

/-- The opcode alone selects NOP (R70, R71). -/
theorem decodeWord_eq_nop {w : Word} (h : opcodeField w = 0b00001#5) : decodeWord w = .nop := by
  simp only [decodeWord, h]

/-- Setting pc changes nothing but pc. -/
theorem State.goesTo_goto (s : State) (p : Word) : GoesTo s (s.goto p) p where
  regs := s.reg_goto p
  pc := s.goto_pc p
  epc := s.goto_epc p
  halted := s.goto_halted p
  written := s.goto_written p
  haltPcDraw := s.goto_haltPcDraw p
  bytes := s.byte_goto p

/-- The frame of the default advance (R27). -/
theorem State.goesTo_advance (s : State) : GoesTo s s.advance (s.pc + 2#16) := s.goesTo_goto s.nextPc

theorem exec_nop (s : State) : exec .nop s = .next s.advance := rfl

/-- Settles O7: the opcode decides the decoding, whatever the low eleven bits are, and the advance has the frame of a
change of pc alone. -/
theorem nopOnlyAdvancesPc : Obligations.NopOnlyAdvancesPc := by
  intro x s
  exact ⟨decodeWord_eq_nop (opcodeField_append _ x), s.advance, exec_nop s, s.goesTo_advance⟩

end Sys2Proof.Machine

/-! # The shift and rotate functions (41_alu_immediate.md R110) -/

namespace Sys2Proof.Machine

/-! ## Formulas -/

theorem toNat_sll16 (v : Word) (n : Nat) : (sll16 v n).toNat = v.toNat * 2 ^ n % 65536 := by
  simp only [sll16, BitVec.toNat_shiftLeft, Nat.shiftLeft_eq]

theorem toNat_srl16 (v : Word) (n : Nat) : (srl16 v n).toNat = v.toNat / 2 ^ n := by
  simp only [srl16, BitVec.toNat_ushiftRight, Nat.shiftRight_eq_div_pow]

@[simp] theorem rol16_zero (v : Word) : rol16 v 0 = v := rfl
@[simp] theorem ror16_zero (v : Word) : ror16 v 0 = v := rfl

theorem rol16_of_pos (v : Word) {n : Nat} (h : 0 < n) : rol16 v n = sll16 v n ||| srl16 v (16 - n) :=
  if_neg h.ne'

theorem ror16_of_pos (v : Word) {n : Nat} (h : 0 < n) : ror16 v n = srl16 v n ||| sll16 v (16 - n) :=
  if_neg h.ne'

/-- The two shifts of a rotation change places. -/
theorem ror16_eq_rol16 (v : Word) {n : Nat} (hn : n < 16) : ror16 v n = rol16 v ((16 - n) % 16) := by
  rcases Nat.eq_zero_or_pos n with rfl | hpos
  · rfl
  · have amount : (16 - n) % 16 = 16 - n := Nat.mod_eq_of_lt (by omega)
    have back : 16 - (16 - n) = n := by omega
    rw [amount, ror16_of_pos v hpos, rol16_of_pos v (by omega), back, BitVec.or_comm]

/-! ## Bit by bit -/

theorem getLsbD_sll16 (v : Word) (n : Nat) {i : Nat} (hi : i < 16) :
    (sll16 v n).getLsbD i = (decide (n ≤ i) && v.getLsbD (i - n)) := by
  rw [sll16, BitVec.getLsbD_shiftLeft]
  by_cases h : n ≤ i
  · simp [hi, h]
  · simp [h, Nat.lt_of_not_le h]

/-- A bit from beyond bit 15 is zero. -/
theorem getLsbD_srl16 (v : Word) (n i : Nat) :
    (srl16 v n).getLsbD i = (decide (i + n ≤ 15) && v.getLsbD (i + n)) := by
  rw [srl16, BitVec.getLsbD_ushiftRight, Nat.add_comm n i]
  by_cases h : i + n ≤ 15
  · simp [h]
  · simp [h, BitVec.getLsbD_of_ge v (i + n) (by omega)]

/-- Bits from `n` up come from the left shift, those below from the right shift. -/
theorem getLsbD_rol16 (v : Word) {n i : Nat} (hn : n < 16) (hi : i < 16) :
    (rol16 v n).getLsbD i = v.getLsbD ((i + 16 - n) % 16) := by
  rcases Nat.eq_zero_or_pos n with rfl | hpos
  · have source : (i + 16 - 0) % 16 = i := by omega
    rw [rol16_zero, source]
  · rw [rol16_of_pos v hpos, BitVec.getLsbD_or, getLsbD_sll16 v n hi, getLsbD_srl16]
    by_cases h : n ≤ i
    · have source : (i + 16 - n) % 16 = i - n := by omega
      have lost : ¬ i + (16 - n) ≤ 15 := by omega
      simp [h, lost, source]
    · have source : (i + 16 - n) % 16 = i + (16 - n) := by omega
      have kept : i + (16 - n) ≤ 15 := by omega
      simp [h, kept, source]

theorem getLsbD_ror16 (v : Word) {n i : Nat} (hn : n < 16) (hi : i < 16) :
    (ror16 v n).getLsbD i = v.getLsbD ((i + n) % 16) := by
  have source : (i + 16 - (16 - n) % 16) % 16 = (i + n) % 16 := by omega
  rw [ror16_eq_rol16 v hn, getLsbD_rol16 v (Nat.mod_lt _ (by decide)) hi, source]

/-- Settles O12: the formulas are those of the definitions, and each bit of a rotation is found in the shift that
brings it there. -/
theorem shiftAndRotateFunctionsBitByBit : Obligations.ShiftAndRotateFunctionsBitByBit := by
  intro v n hn
  refine ⟨toNat_sll16 v n, toNat_srl16 v n, rol16_zero v, ror16_zero v, fun hpos => ?_, ror16_eq_rol16 v hn,
    fun i hi => ?_⟩
  · exact ⟨rol16_of_pos v hpos, ror16_of_pos v hpos⟩
  · exact ⟨getLsbD_sll16 v n hi, getLsbD_srl16 v n i, getLsbD_rol16 v hn hi, getLsbD_ror16 v hn hi⟩

end Sys2Proof.Machine

/-! # The instructions with a 5-bit immediate (41_alu_immediate.md) -/

namespace Sys2Proof.Machine

/-! ## Operand values of the immediate field (R67, R69) -/

theorem signedImm_toInt {w : Nat} (imm : BitVec w) : signedImm imm.toInt = imm.signExtend 16 := rfl

theorem unsignedImm_toNat {w : Nat} (imm : BitVec w) : unsignedImm imm.toNat = imm.setWidth 16 :=
  BitVec.ofNat_toNat 16 imm

/-- The amount of a shift-immediate drops bit 4 of the field. -/
theorem toNat_amount_eq_mod (imm : BitVec 5) : (imm.extractLsb' 0 4).toNat = imm.toNat % 16 := by
  simp only [BitVec.extractLsb'_toNat, Nat.shiftRight_zero, Nat.reducePow]

/-! ## What each opcode of I-format 1 decodes to (R70) -/

theorem decodeWord_wordI1_addi (rd rs : RegNo) (imm : BitVec 5) :
    decodeWord (wordI1 0b01000#5 rs rd imm) = .addi rd rs imm.toInt := by
  simp only [decodeWord, opcodeField_wordI1, regField7_wordI1, regField10_wordI1, imm5Field_wordI1]

theorem decodeWord_wordI1_subi (rd rs : RegNo) (imm : BitVec 5) :
    decodeWord (wordI1 0b01001#5 rs rd imm) = .subi rd rs imm.toInt := by
  simp only [decodeWord, opcodeField_wordI1, regField7_wordI1, regField10_wordI1, imm5Field_wordI1]

theorem decodeWord_wordI1_xori (rd rs : RegNo) (imm : BitVec 5) :
    decodeWord (wordI1 0b01010#5 rs rd imm) = .xori rd rs imm.toNat := by
  simp only [decodeWord, opcodeField_wordI1, regField7_wordI1, regField10_wordI1, imm5Field_wordI1]

theorem decodeWord_wordI1_andni (rd rs : RegNo) (imm : BitVec 5) :
    decodeWord (wordI1 0b01011#5 rs rd imm) = .andni rd rs imm.toNat := by
  simp only [decodeWord, opcodeField_wordI1, regField7_wordI1, regField10_wordI1, imm5Field_wordI1]

theorem decodeWord_wordI1_roli (rd rs : RegNo) (imm : BitVec 5) :
    decodeWord (wordI1 0b10100#5 rs rd imm) = .roli rd rs (imm.toNat % 16) := by
  simp only [decodeWord, opcodeField_wordI1, regField7_wordI1, regField10_wordI1, amountField_wordI1,
    toNat_amount_eq_mod]

theorem decodeWord_wordI1_slli (rd rs : RegNo) (imm : BitVec 5) :
    decodeWord (wordI1 0b10101#5 rs rd imm) = .slli rd rs (imm.toNat % 16) := by
  simp only [decodeWord, opcodeField_wordI1, regField7_wordI1, regField10_wordI1, amountField_wordI1,
    toNat_amount_eq_mod]

theorem decodeWord_wordI1_rori (rd rs : RegNo) (imm : BitVec 5) :
    decodeWord (wordI1 0b10110#5 rs rd imm) = .rori rd rs (imm.toNat % 16) := by
  simp only [decodeWord, opcodeField_wordI1, regField7_wordI1, regField10_wordI1, amountField_wordI1,
    toNat_amount_eq_mod]

theorem decodeWord_wordI1_srli (rd rs : RegNo) (imm : BitVec 5) :
    decodeWord (wordI1 0b10111#5 rs rd imm) = .srli rd rs (imm.toNat % 16) := by
  simp only [decodeWord, opcodeField_wordI1, regField7_wordI1, regField10_wordI1, amountField_wordI1,
    toNat_amount_eq_mod]

/-! ## The value each instruction writes -/

theorem exec_addi (rd rs : RegNo) (imm : Int) (s : State) :
    exec (.addi rd rs imm) s = writeReg rd (s.reg rs + signedImm imm) s := rfl
theorem exec_subi (rd rs : RegNo) (imm : Int) (s : State) :
    exec (.subi rd rs imm) s = writeReg rd (signedImm imm - s.reg rs) s := rfl
theorem exec_xori (rd rs : RegNo) (imm : Nat) (s : State) :
    exec (.xori rd rs imm) s = writeReg rd (s.reg rs ^^^ unsignedImm imm) s := rfl
theorem exec_andni (rd rs : RegNo) (imm : Nat) (s : State) :
    exec (.andni rd rs imm) s = writeReg rd (s.reg rs &&& ~~~unsignedImm imm) s := rfl
theorem exec_roli (rd rs : RegNo) (amount : Nat) (s : State) :
    exec (.roli rd rs amount) s = writeReg rd (rol16 (s.reg rs) amount) s := rfl
theorem exec_slli (rd rs : RegNo) (amount : Nat) (s : State) :
    exec (.slli rd rs amount) s = writeReg rd (sll16 (s.reg rs) amount) s := rfl
theorem exec_rori (rd rs : RegNo) (amount : Nat) (s : State) :
    exec (.rori rd rs amount) s = writeReg rd (ror16 (s.reg rs) amount) s := rfl
theorem exec_srli (rd rs : RegNo) (amount : Nat) (s : State) :
    exec (.srli rd rs amount) s = writeReg rd (srl16 (s.reg rs) amount) s := rfl

/-! ## The frame of a computing instruction (R27) -/

theorem State.writesReg_setReg_advance (s : State) (rd : RegNo) (v : Word) :
    WritesReg s (s.setReg rd v).advance rd v (s.pc + 2#16) where
  value := s.reg_setReg_same rd v
  others _ hq := s.reg_setReg_other v hq
  pc := rfl
  epc := s.setReg_epc rd v
  halted := s.setReg_halted rd v
  written := s.setReg_written rd v
  haltPcDraw := s.setReg_haltPcDraw rd v
  bytes := s.byte_setReg rd v

/-- An instruction that is a register write answers, with the frame of that write. -/
theorem exec_writesReg {i : Instr} {s : State} {rd : RegNo} {v : Word} (h : exec i s = writeReg rd v s) :
    ∃ t, exec i s = .next t ∧ WritesReg s t rd v (s.pc + 2#16) :=
  ⟨(s.setReg rd v).advance, h.trans (writeReg_eq_next.mpr rfl), s.writesReg_setReg_advance rd v⟩

/-! ## The statements -/

/-- Settles O9: both write a register, and the operand `signedImm` makes of the field is its sign extension. -/
theorem addiAndSubiUseTheSignedImmediate : Obligations.AddiAndSubiUseTheSignedImmediate := by
  intro rd rs imm5 s
  rw [← signedImm_toInt]
  exact ⟨⟨decodeWord_wordI1_addi rd rs imm5, exec_writesReg (exec_addi rd rs _ s)⟩,
    ⟨decodeWord_wordI1_subi rd rs imm5, exec_writesReg (exec_subi rd rs _ s)⟩⟩

/-- Settles O10: both write a register, and the operand `unsignedImm` makes of the field is its zero extension, which
ANDNI complements whole. -/
theorem xoriAndAndniUseTheUnsignedImmediate : Obligations.XoriAndAndniUseTheUnsignedImmediate := by
  intro rd rs imm5 s
  rw [← unsignedImm_toNat]
  exact ⟨⟨decodeWord_wordI1_xori rd rs imm5, exec_writesReg (exec_xori rd rs _ s)⟩,
    ⟨decodeWord_wordI1_andni rd rs imm5, exec_writesReg (exec_andni rd rs _ s)⟩⟩

/-- Settles O11: the decoder hands over the low four bits of the field, and each instruction writes its function of
them. -/
theorem shiftImmediatesUseTheLowFourBits : Obligations.ShiftImmediatesUseTheLowFourBits := by
  intro rd rs imm5 s
  exact ⟨⟨decodeWord_wordI1_roli rd rs imm5, exec_writesReg (exec_roli rd rs _ s)⟩,
    ⟨decodeWord_wordI1_slli rd rs imm5, exec_writesReg (exec_slli rd rs _ s)⟩,
    ⟨decodeWord_wordI1_rori rd rs imm5, exec_writesReg (exec_rori rd rs _ s)⟩,
    ⟨decodeWord_wordI1_srli rd rs imm5, exec_writesReg (exec_srli rd rs _ s)⟩⟩

end Sys2Proof.Machine

/-! # The R-format computations (43_alu_register.md) -/

namespace Sys2Proof.Machine

/-! ## The operand functions -/

/-- The amount of a shift by a register drops bits 15:4 (R136). -/
theorem shiftAmount_eq_mod (v : Word) : shiftAmount v = v.toNat % 16 := by
  simp only [shiftAmount, BitVec.extractLsb'_toNat, Nat.shiftRight_zero, Nat.reducePow]

theorem getLsbD_reverse16 (v : Word) {i : Nat} (hi : i < 16) : (reverse16 v).getLsbD i = v.getLsbD (15 - i) := by
  have source : 16 - 1 - i = 15 - i := rfl
  rw [reverse16, BitVec.getLsbD_reverse, BitVec.getMsbD_eq_getLsbD, decide_eq_true hi, Bool.true_and, source]

@[simp] theorem reverse16_reverse16 (v : Word) : reverse16 (reverse16 v) = v := BitVec.reverse_reverse_eq

/-! ## What each opcode of R-format and its function decode to (R70) -/

/-- Bits 7:5 of a BTR, which name no register (R71), may hold anything. -/
theorem decodeWord_btr (rd rs : RegNo) (x : BitVec 3) (y : BitVec 2) :
    decodeWord (0b11001#5 ++ regBits rs ++ x ++ regBits rd ++ y) = .btr rd rs := by
  have format : (0b11001#5 ++ regBits rs ++ x ++ regBits rd ++ y : Word) = wordR 0b11001#5 rs x.toFin rd y := rfl
  simp only [format, decodeWord, opcodeField_wordR, regField10_wordR, regField4_wordR]

theorem decodeWord_wordR_rol (rd rs rt : RegNo) : decodeWord (wordR 0b11010#5 rs rt rd 0b00#2) = .rol rd rs rt := by
  simp only [decodeWord, opcodeField_wordR, functField_wordR, regField10_wordR, regField7_wordR, regField4_wordR]

theorem decodeWord_wordR_sll (rd rs rt : RegNo) : decodeWord (wordR 0b11010#5 rs rt rd 0b01#2) = .sll rd rs rt := by
  simp only [decodeWord, opcodeField_wordR, functField_wordR, regField10_wordR, regField7_wordR, regField4_wordR]

theorem decodeWord_wordR_ror (rd rs rt : RegNo) : decodeWord (wordR 0b11010#5 rs rt rd 0b10#2) = .ror rd rs rt := by
  simp only [decodeWord, opcodeField_wordR, functField_wordR, regField10_wordR, regField7_wordR, regField4_wordR]

/-- Function 11 is the value left to the last arm of the decoder, as for ANDN below. -/
theorem decodeWord_wordR_srl (rd rs rt : RegNo) : decodeWord (wordR 0b11010#5 rs rt rd 0b11#2) = .srl rd rs rt := by
  simp only [decodeWord, opcodeField_wordR, functField_wordR, regField10_wordR, regField7_wordR, regField4_wordR]
  rfl

theorem decodeWord_wordR_add (rd rs rt : RegNo) : decodeWord (wordR 0b11011#5 rs rt rd 0b00#2) = .add rd rs rt := by
  simp only [decodeWord, opcodeField_wordR, functField_wordR, regField10_wordR, regField7_wordR, regField4_wordR]

theorem decodeWord_wordR_sub (rd rs rt : RegNo) : decodeWord (wordR 0b11011#5 rs rt rd 0b01#2) = .sub rd rs rt := by
  simp only [decodeWord, opcodeField_wordR, functField_wordR, regField10_wordR, regField7_wordR, regField4_wordR]

theorem decodeWord_wordR_xor (rd rs rt : RegNo) : decodeWord (wordR 0b11011#5 rs rt rd 0b10#2) = .xor rd rs rt := by
  simp only [decodeWord, opcodeField_wordR, functField_wordR, regField10_wordR, regField7_wordR, regField4_wordR]

theorem decodeWord_wordR_andn (rd rs rt : RegNo) : decodeWord (wordR 0b11011#5 rs rt rd 0b11#2) = .andn rd rs rt := by
  simp only [decodeWord, opcodeField_wordR, functField_wordR, regField10_wordR, regField7_wordR, regField4_wordR]
  rfl

/-! ## The value each instruction writes -/

theorem exec_btr (rd rs : RegNo) (s : State) : exec (.btr rd rs) s = writeReg rd (reverse16 (s.reg rs)) s := rfl
theorem exec_add (rd rs rt : RegNo) (s : State) :
    exec (.add rd rs rt) s = writeReg rd (s.reg rs + s.reg rt) s := rfl
theorem exec_sub (rd rs rt : RegNo) (s : State) :
    exec (.sub rd rs rt) s = writeReg rd (s.reg rt - s.reg rs) s := rfl
theorem exec_xor (rd rs rt : RegNo) (s : State) :
    exec (.xor rd rs rt) s = writeReg rd (s.reg rs ^^^ s.reg rt) s := rfl
theorem exec_andn (rd rs rt : RegNo) (s : State) :
    exec (.andn rd rs rt) s = writeReg rd (s.reg rs &&& ~~~s.reg rt) s := rfl
theorem exec_rol (rd rs rt : RegNo) (s : State) :
    exec (.rol rd rs rt) s = writeReg rd (rol16 (s.reg rs) (shiftAmount (s.reg rt))) s := rfl
theorem exec_sll (rd rs rt : RegNo) (s : State) :
    exec (.sll rd rs rt) s = writeReg rd (sll16 (s.reg rs) (shiftAmount (s.reg rt))) s := rfl
theorem exec_ror (rd rs rt : RegNo) (s : State) :
    exec (.ror rd rs rt) s = writeReg rd (ror16 (s.reg rs) (shiftAmount (s.reg rt))) s := rfl
theorem exec_srl (rd rs rt : RegNo) (s : State) :
    exec (.srl rd rs rt) s = writeReg rd (srl16 (s.reg rs) (shiftAmount (s.reg rt))) s := rfl

/-! ## The statements -/

/-- Settles O17: BTR writes the reversed register, and reversing it once more gives the old value back. -/
theorem btrReversesTheBits : Obligations.BtrReversesTheBits := by
  intro rd rs x y s
  obtain ⟨t, ht, frame⟩ := exec_writesReg (exec_btr rd rs s)
  obtain ⟨u, hu, again⟩ := exec_writesReg (exec_btr rd rd t)
  have reversed : t.reg rd = reverse16 (s.reg rs) := frame.value
  have restored : u.reg rd = s.reg rs := by rw [again.value, reversed, reverse16_reverse16]
  refine ⟨decodeWord_btr rd rs x y, t, ht, ?_, fun i hi => ?_, u, hu, restored⟩
  · rwa [reversed]
  · rw [reversed, getLsbD_reverse16 _ hi]

/-- Settles O18: each is a register write, with the operands in the order of its rule. -/
theorem addSubXorAndnCompute : Obligations.AddSubXorAndnCompute := by
  intro rd rs rt s
  exact ⟨⟨decodeWord_wordR_add rd rs rt, exec_writesReg (exec_add rd rs rt s)⟩,
    ⟨decodeWord_wordR_sub rd rs rt, exec_writesReg (exec_sub rd rs rt s)⟩,
    ⟨decodeWord_wordR_xor rd rs rt, exec_writesReg (exec_xor rd rs rt s)⟩,
    ⟨decodeWord_wordR_andn rd rs rt, exec_writesReg (exec_andn rd rs rt s)⟩⟩

/-- Settles O19: each is a register write, and the low four bits of Rt are Rt modulo 16. -/
theorem registerShiftsUseRtModuloSixteen : Obligations.RegisterShiftsUseRtModuloSixteen := by
  intro rd rs rt s
  rw [← shiftAmount_eq_mod]
  exact ⟨⟨decodeWord_wordR_rol rd rs rt, exec_writesReg (exec_rol rd rs rt s)⟩,
    ⟨decodeWord_wordR_sll rd rs rt, exec_writesReg (exec_sll rd rs rt s)⟩,
    ⟨decodeWord_wordR_ror rd rs rt, exec_writesReg (exec_ror rd rs rt s)⟩,
    ⟨decodeWord_wordR_srl rd rs rt, exec_writesReg (exec_srl rd rs rt s)⟩⟩

end Sys2Proof.Machine

/-! # The set instructions SEQ and SCO (44_set.md) -/

namespace Sys2Proof.Machine

/-! ## The value of a set instruction (R140) -/

/-- The word written for a condition, as a choice on the proposition that the condition decides. -/
theorem setWord_decide (p : Prop) [Decidable p] : setWord (decide p) = if p then 0x0001#16 else 0x0000#16 := by
  simp only [setWord, decide_eq_true_eq]

theorem isEqual_eq_decide (a b : Word) : isEqual a b = decide (a = b) := beq_eq_decide a b

/-! ## What their opcodes decode to, whatever the two don't-care bits are (R70, R71) -/

theorem decodeWord_wordR_seq (rd rs rt : RegNo) (x : BitVec 2) :
    decodeWord (wordR 0b11100#5 rs rt rd x) = .seq rd rs rt := by
  simp only [decodeWord, opcodeField_wordR, regField10_wordR, regField7_wordR, regField4_wordR]

/-- Opcode 11111 is the value left to the last arm of the decoder. -/
theorem decodeWord_wordR_sco (rd rs rt : RegNo) (x : BitVec 2) :
    decodeWord (wordR 0b11111#5 rs rt rd x) = .sco rd rs rt := by
  simp only [decodeWord, opcodeField_wordR, regField10_wordR, regField7_wordR, regField4_wordR]
  rfl

/-! ## The value each instruction writes -/

theorem exec_seq (rd rs rt : RegNo) (s : State) :
    exec (.seq rd rs rt) s = writeReg rd (setWord (isEqual (s.reg rs) (s.reg rt))) s := rfl
theorem exec_sco (rd rs rt : RegNo) (s : State) :
    exec (.sco rd rs rt) s = writeReg rd (setWord (decide (65536 ≤ (s.reg rs).toNat + (s.reg rt).toNat))) s := rfl

/-! ## The statement -/

/-- Settles O20: each is a register write of the word for its condition, which decides equality for SEQ and the carry
out for SCO. -/
theorem seqAndScoSetOneOrZero : Obligations.SeqAndScoSetOneOrZero := by
  intro rd rs rt x s
  have seq := exec_writesReg (exec_seq rd rs rt s)
  have sco := exec_writesReg (exec_sco rd rs rt s)
  rw [isEqual_eq_decide, setWord_decide] at seq
  rw [setWord_decide] at sco
  exact ⟨⟨decodeWord_wordR_seq rd rs rt x, seq⟩, ⟨decodeWord_wordR_sco rd rs rt x, sco⟩⟩

end Sys2Proof.Machine

/-! # The conditional branches (45_branch.md) -/

namespace Sys2Proof.Machine

/-! ## The tests of a register against zero (R151 to R154) -/

theorem isZero_eq_decide (v : Word) : isZero v = decide (v = 0x0000#16) := beq_eq_decide v 0x0000#16

theorem not_isZero_eq_decide (v : Word) : (!isZero v) = decide (v ≠ 0x0000#16) := by
  rw [isZero_eq_decide, decide_not]

/-- R153: bit 15 is the sign of the two's-complement integer. -/
theorem isNegative_eq_decide (v : Word) : isNegative v = decide (v.toInt < 0) := v.msb_eq_toInt

theorem not_isNegative_eq_decide (v : Word) : (!isNegative v) = decide (0 ≤ v.toInt) := by
  rw [isNegative_eq_decide, ← decide_not, decide_eq_decide, Int.not_lt]

/-! ## What each opcode of the branches decodes to (R70) -/

theorem decodeWord_wordI2_beqz (rs : RegNo) (imm : BitVec 8) :
    decodeWord (wordI2 0b01100#5 rs imm) = .beqz rs imm.toInt := by
  simp only [decodeWord, opcodeField_wordI2, regField10_wordI2, imm8Field_wordI2]

theorem decodeWord_wordI2_bnez (rs : RegNo) (imm : BitVec 8) :
    decodeWord (wordI2 0b01101#5 rs imm) = .bnez rs imm.toInt := by
  simp only [decodeWord, opcodeField_wordI2, regField10_wordI2, imm8Field_wordI2]

theorem decodeWord_wordI2_bltz (rs : RegNo) (imm : BitVec 8) :
    decodeWord (wordI2 0b01110#5 rs imm) = .bltz rs imm.toInt := by
  simp only [decodeWord, opcodeField_wordI2, regField10_wordI2, imm8Field_wordI2]

theorem decodeWord_wordI2_bgez (rs : RegNo) (imm : BitVec 8) :
    decodeWord (wordI2 0b01111#5 rs imm) = .bgez rs imm.toInt := by
  simp only [decodeWord, opcodeField_wordI2, regField10_wordI2, imm8Field_wordI2]

/-! ## The condition each instruction branches on -/

theorem exec_beqz (rs : RegNo) (imm : Int) (s : State) :
    exec (.beqz rs imm) s = branchIf (decide (s.reg rs = 0x0000#16)) imm s :=
  congrArg (branchIf · imm s) (isZero_eq_decide (s.reg rs))
theorem exec_bnez (rs : RegNo) (imm : Int) (s : State) :
    exec (.bnez rs imm) s = branchIf (decide (s.reg rs ≠ 0x0000#16)) imm s :=
  congrArg (branchIf · imm s) (not_isZero_eq_decide (s.reg rs))
theorem exec_bltz (rs : RegNo) (imm : Int) (s : State) :
    exec (.bltz rs imm) s = branchIf (decide ((s.reg rs).toInt < 0)) imm s :=
  congrArg (branchIf · imm s) (isNegative_eq_decide (s.reg rs))
theorem exec_bgez (rs : RegNo) (imm : Int) (s : State) :
    exec (.bgez rs imm) s = branchIf (decide (0 ≤ (s.reg rs).toInt)) imm s :=
  congrArg (branchIf · imm s) (not_isNegative_eq_decide (s.reg rs))

/-! ## Where a branch goes, and its frame (R150) -/

/-- A displacement field, as the decoder hands it over, is added sign-extended to the address of the next instruction
(R68). -/
theorem relativeTarget_toInt {w : Nat} (s : State) (imm : BitVec w) :
    relativeTarget s imm.toInt = s.pc + 2#16 + imm.signExtend 16 := by
  rw [relativeTarget, signedImm_toInt, State.nextPc]

/-- An instruction that branches on a condition answers, taken or not, with pc alone changed. -/
theorem exec_goesTo_of_branchIf {i : Instr} {s : State} {p : Prop} [Decidable p] {imm : BitVec 8}
    (h : exec i s = branchIf (decide p) imm.toInt s) :
    ∃ t, exec i s = .next t ∧ GoesTo s t (if p then s.pc + 2#16 + imm.signExtend 16 else s.pc + 2#16) := by
  refine ⟨_, h.trans (branchIf_eq_next.mpr rfl), ?_⟩
  simp only [decide_eq_true_eq, relativeTarget_toInt]
  exact s.goesTo_goto _

/-! ## The statement -/

/-- Settles O24: each word is its opcode in I-format 2, and each instruction branches on a test that decides its
condition on Rs. -/
theorem branchesTestOneRegister : Obligations.BranchesTestOneRegister := by
  intro rs imm8 s
  exact ⟨⟨decodeWord_wordI2_beqz rs imm8, exec_goesTo_of_branchIf (exec_beqz rs _ s)⟩,
    ⟨decodeWord_wordI2_bnez rs imm8, exec_goesTo_of_branchIf (exec_bnez rs _ s)⟩,
    ⟨decodeWord_wordI2_bltz rs imm8, exec_goesTo_of_branchIf (exec_bltz rs _ s)⟩,
    ⟨decodeWord_wordI2_bgez rs imm8, exec_goesTo_of_branchIf (exec_bgez rs _ s)⟩⟩

end Sys2Proof.Machine

/-! # LBI (46_load_immediate.md R160) -/

namespace Sys2Proof.Machine

/-- The register field is LBI's destination (R64, R70). -/
theorem decodeWord_wordI2_lbi (rs : RegNo) (imm : BitVec 8) :
    decodeWord (wordI2 0b11000#5 rs imm) = .lbi rs imm.toInt := by
  simp only [decodeWord, opcodeField_wordI2, regField10_wordI2, imm8Field_wordI2]

/-- The value written is read from no register. -/
theorem exec_lbi (rs : RegNo) (imm : Int) (s : State) : exec (.lbi rs imm) s = writeReg rs (signedImm imm) s := rfl

/-- Settles O25: LBI is a register write, and the operand `signedImm` makes of the field is its sign extension. -/
theorem lbiLoadsTheSignedImmediate : Obligations.LbiLoadsTheSignedImmediate := by
  intro rs imm8 s
  rw [← signedImm_toInt]
  exact ⟨decodeWord_wordI2_lbi rs imm8, exec_writesReg (exec_lbi rs _ s)⟩

end Sys2Proof.Machine

/-! # The jumps J, JR and JAL (47_jump.md) -/

namespace Sys2Proof.Machine

/-! ## What their opcodes decode to (R70) -/

theorem decodeWord_wordJ_j (disp : BitVec 11) : decodeWord (wordJ 0b00100#5 disp) = .j disp.toInt := by
  simp only [decodeWord, opcodeField_wordJ, disp11Field_wordJ]

theorem decodeWord_wordI2_jr (rs : RegNo) (imm : BitVec 8) :
    decodeWord (wordI2 0b00101#5 rs imm) = .jr rs imm.toInt := by
  simp only [decodeWord, opcodeField_wordI2, regField10_wordI2, imm8Field_wordI2]

theorem decodeWord_wordJ_jal (disp : BitVec 11) : decodeWord (wordJ 0b00110#5 disp) = .jal disp.toInt := by
  simp only [decodeWord, opcodeField_wordJ, disp11Field_wordJ]

/-! ## Where each instruction goes -/

theorem exec_j (disp : Int) (s : State) : exec (.j disp) s = .next (s.goto (relativeTarget s disp)) := rfl
theorem exec_jr (rs : RegNo) (imm : Int) (s : State) :
    exec (.jr rs imm) s = .next (s.goto (registerTarget s rs imm)) := rfl

/-- The target is computed in the state before R7 is written. -/
theorem exec_jal (disp : Int) (s : State) : exec (.jal disp) s = linkAndGoto (relativeTarget s disp) s := rfl

/-- An immediate field, as the decoder hands it over, is added sign-extended to the register; pc does not enter (R172). -/
theorem registerTarget_toInt {w : Nat} (s : State) (rs : RegNo) (imm : BitVec w) :
    registerTarget s rs imm.toInt = s.reg rs + imm.signExtend 16 := by
  rw [registerTarget, signedImm_toInt]

/-! ## The frames -/

/-- An instruction that only sets pc answers, with the frame of that change. -/
theorem exec_goesTo {i : Instr} {s : State} {p : Word} (h : exec i s = .next (s.goto p)) :
    ∃ t, exec i s = .next t ∧ GoesTo s t p :=
  ⟨s.goto p, h, s.goesTo_goto p⟩

/-- Going on to another address after a register write changes nothing of its frame but pc. -/
theorem WritesReg.goto {s t : State} {rd : RegNo} {v p : Word} (h : WritesReg s t rd v p) (q : Word) :
    WritesReg s (t.goto q) rd v q where
  value := h.value
  others := h.others
  pc := t.goto_pc q
  epc := h.epc
  halted := h.halted
  written := h.written
  haltPcDraw := h.haltPcDraw
  bytes := h.bytes

/-- A linking jump answers, with R7 holding the address of the next sequential instruction (R170). -/
theorem exec_writesReg_of_linkAndGoto {i : Instr} {s : State} {p : Word} (h : exec i s = linkAndGoto p s) :
    ∃ t, exec i s = .next t ∧ WritesReg s t 7 (s.pc + 2#16) p :=
  ⟨(s.setReg linkReg s.nextPc).goto p, h.trans (linkAndGoto_eq_next.mpr rfl),
    (s.writesReg_setReg_advance linkReg s.nextPc).goto p⟩

/-! ## The statements -/

/-- Settles O28: both set pc alone, J to the displacement from the next instruction and JR to the immediate from Rs. -/
theorem jumpsGoToTheirTargets : Obligations.JumpsGoToTheirTargets := by
  refine ⟨fun disp11 s => ?_, fun rs imm8 s => ?_⟩
  · rw [← relativeTarget_toInt]
    exact ⟨decodeWord_wordJ_j disp11, exec_goesTo (exec_j _ s)⟩
  · rw [← registerTarget_toInt]
    exact ⟨decodeWord_wordI2_jr rs imm8, exec_goesTo (exec_jr rs _ s)⟩

/-- Settles O29: JAL is a linking jump to J's target, which the old pc gives as it gives the link. -/
theorem jalLinksAndJumps : Obligations.JalLinksAndJumps := by
  intro disp11 s
  rw [← relativeTarget_toInt]
  exact ⟨decodeWord_wordJ_jal disp11, exec_writesReg_of_linkAndGoto (exec_jal _ s)⟩

end Sys2Proof.Machine

/-! # Decoding and encoding (30_encoding.md sections 3 to 5) -/

namespace Sys2Proof.Machine

/-! ## What the other opcodes decode to (R70) -/

theorem decodeWord_eq_halt {w : Word} (h : opcodeField w = 0b00000#5) : decodeWord w = .halt := by
  simp only [decodeWord, h]

theorem decodeWord_eq_rti {w : Word} (h : opcodeField w = 0b00011#5) : decodeWord w = .rti := by
  simp only [decodeWord, h]

/-- The low byte of a `siic` selects nothing (R71). -/
theorem decodeWord_siic (rs : RegNo) (x : BitVec 8) : decodeWord (wordI2 0b00010#5 rs x) = .siic rs := by
  simp only [decodeWord, opcodeField_wordI2, regField10_wordI2]

theorem decodeWord_wordI2_jalr (rs : RegNo) (imm : BitVec 8) :
    decodeWord (wordI2 0b00111#5 rs imm) = .jalr rs imm.toInt := by
  simp only [decodeWord, opcodeField_wordI2, regField10_wordI2, imm8Field_wordI2]

theorem decodeWord_wordI2_slbi (rs : RegNo) (imm : BitVec 8) :
    decodeWord (wordI2 0b10010#5 rs imm) = .slbi rs imm.toNat := by
  simp only [decodeWord, opcodeField_wordI2, regField10_wordI2, imm8Field_wordI2]

theorem decodeWord_wordI1_st (rd rs : RegNo) (imm : BitVec 5) :
    decodeWord (wordI1 0b10000#5 rs rd imm) = .st rd rs imm.toInt := by
  simp only [decodeWord, opcodeField_wordI1, regField7_wordI1, regField10_wordI1, imm5Field_wordI1]

theorem decodeWord_wordI1_ld (rd rs : RegNo) (imm : BitVec 5) :
    decodeWord (wordI1 0b10001#5 rs rd imm) = .ld rd rs imm.toInt := by
  simp only [decodeWord, opcodeField_wordI1, regField7_wordI1, regField10_wordI1, imm5Field_wordI1]

theorem decodeWord_wordI1_stu (rd rs : RegNo) (imm : BitVec 5) :
    decodeWord (wordI1 0b10011#5 rs rd imm) = .stu rd rs imm.toInt := by
  simp only [decodeWord, opcodeField_wordI1, regField7_wordI1, regField10_wordI1, imm5Field_wordI1]

theorem decodeWord_wordR_slt (rd rs rt : RegNo) (x : BitVec 2) :
    decodeWord (wordR 0b11101#5 rs rt rd x) = .slt rd rs rt := by
  simp only [decodeWord, opcodeField_wordR, regField10_wordR, regField7_wordR, regField4_wordR]

theorem decodeWord_wordR_sle (rd rs rt : RegNo) (x : BitVec 2) :
    decodeWord (wordR 0b11110#5 rs rt rd x) = .sle rd rs rt := by
  simp only [decodeWord, opcodeField_wordR, regField10_wordR, regField7_wordR, regField4_wordR]

/-! ## The decoder undoes the encoder -/

/-- An amount in range is less than 16, so that bit 4 of its field is clear. -/
theorem toNat_amount_mod_of_fitsAmount {v : Nat} (h : fitsAmount v = true) : (BitVec.ofNat 5 v).toNat % 16 = v :=
  (toNat_amount_eq_mod _).symm.trans (toNat_amount_of_fitsAmount h)

theorem decodeWord_encodeWord {i : Instr} (h : i.wellFormed = true) : decodeWord (encodeWord i) = i := by
  cases i with
  | halt => exact decodeWord_eq_halt (opcodeField_wordS _)
  | nop => exact decodeWord_eq_nop (opcodeField_wordS _)
  | siic rs => exact decodeWord_siic rs 0#8
  | rti => exact decodeWord_eq_rti (opcodeField_wordS _)
  | j disp => rw [encodeWord, decodeWord_wordJ_j, toInt_ofInt_of_fitsSigned11 h]
  | jr rs imm => rw [encodeWord, decodeWord_wordI2_jr, toInt_ofInt_of_fitsSigned8 h]
  | jal disp => rw [encodeWord, decodeWord_wordJ_jal, toInt_ofInt_of_fitsSigned11 h]
  | jalr rs imm => rw [encodeWord, decodeWord_wordI2_jalr, toInt_ofInt_of_fitsSigned8 h]
  | addi rd rs imm => rw [encodeWord, decodeWord_wordI1_addi, toInt_ofInt_of_fitsSigned5 h]
  | subi rd rs imm => rw [encodeWord, decodeWord_wordI1_subi, toInt_ofInt_of_fitsSigned5 h]
  | xori rd rs imm => rw [encodeWord, decodeWord_wordI1_xori, toNat_ofNat_of_fitsUnsigned5 h]
  | andni rd rs imm => rw [encodeWord, decodeWord_wordI1_andni, toNat_ofNat_of_fitsUnsigned5 h]
  | beqz rs imm => rw [encodeWord, decodeWord_wordI2_beqz, toInt_ofInt_of_fitsSigned8 h]
  | bnez rs imm => rw [encodeWord, decodeWord_wordI2_bnez, toInt_ofInt_of_fitsSigned8 h]
  | bltz rs imm => rw [encodeWord, decodeWord_wordI2_bltz, toInt_ofInt_of_fitsSigned8 h]
  | bgez rs imm => rw [encodeWord, decodeWord_wordI2_bgez, toInt_ofInt_of_fitsSigned8 h]
  | st rd rs imm => rw [encodeWord, decodeWord_wordI1_st, toInt_ofInt_of_fitsSigned5 h]
  | ld rd rs imm => rw [encodeWord, decodeWord_wordI1_ld, toInt_ofInt_of_fitsSigned5 h]
  | slbi rs imm => rw [encodeWord, decodeWord_wordI2_slbi, toNat_ofNat_of_fitsUnsigned8 h]
  | stu rd rs imm => rw [encodeWord, decodeWord_wordI1_stu, toInt_ofInt_of_fitsSigned5 h]
  | roli rd rs amount => rw [encodeWord, decodeWord_wordI1_roli, toNat_amount_mod_of_fitsAmount h]
  | slli rd rs amount => rw [encodeWord, decodeWord_wordI1_slli, toNat_amount_mod_of_fitsAmount h]
  | rori rd rs amount => rw [encodeWord, decodeWord_wordI1_rori, toNat_amount_mod_of_fitsAmount h]
  | srli rd rs amount => rw [encodeWord, decodeWord_wordI1_srli, toNat_amount_mod_of_fitsAmount h]
  | lbi rs imm => rw [encodeWord, decodeWord_wordI2_lbi, toInt_ofInt_of_fitsSigned8 h]
  | btr rd rs => exact decodeWord_btr rd rs 0#3 0b00#2
  | rol rd rs rt => exact decodeWord_wordR_rol rd rs rt
  | sll rd rs rt => exact decodeWord_wordR_sll rd rs rt
  | ror rd rs rt => exact decodeWord_wordR_ror rd rs rt
  | srl rd rs rt => exact decodeWord_wordR_srl rd rs rt
  | add rd rs rt => exact decodeWord_wordR_add rd rs rt
  | sub rd rs rt => exact decodeWord_wordR_sub rd rs rt
  | xor rd rs rt => exact decodeWord_wordR_xor rd rs rt
  | andn rd rs rt => exact decodeWord_wordR_andn rd rs rt
  | seq rd rs rt => exact decodeWord_wordR_seq rd rs rt 0b00#2
  | slt rd rs rt => exact decodeWord_wordR_slt rd rs rt 0b00#2
  | sle rd rs rt => exact decodeWord_wordR_sle rd rs rt 0b00#2
  | sco rd rs rt => exact decodeWord_wordR_sco rd rs rt 0b00#2

theorem encode_eq_some {i : Instr} (h : i.wellFormed = true) : encode i = some (encodeWord i) := if_pos h

theorem encode_eq_none {i : Instr} (h : i.wellFormed = false) : encode i = none := by
  simp only [encode, h, Bool.false_eq_true, if_false]

theorem encodeBytes_eq_some {i : Instr} (h : i.wellFormed = true) :
    encodeBytes i = some [highByte (encodeWord i), lowByte (encodeWord i)] := by
  rw [encodeBytes, encode_eq_some h, Option.map_some]

/-- The bytes of a word, high byte first, decode as the word does, whatever bytes follow. -/
theorem decode_bytes_append (w : Word) (rest : List Byte) :
    decode ([highByte w, lowByte w] ++ rest) = .ok (decodeWord w, rest) := by
  simp only [List.cons_append, List.nil_append, decode, wordOfBytes_bytes]

/-- Settles O1: the decoder undoes the encoder format by format, each operand in range surviving its field, and the two
bytes of the word are put together again. -/
theorem decodeInvertsEncode : Obligations.DecodeInvertsEncode := by
  intro i wf
  have inverse := decodeWord_encodeWord wf
  refine ⟨encodeWord i, encode_eq_some wf, inverse, _, encodeBytes_eq_some wf, rfl, fun rest => ?_⟩
  rw [decode_bytes_append, inverse]

/-! ## A word, put together from its fields (R62 to R66) -/

theorem wordJ_fields (w : Word) : wordJ (opcodeField w) (disp11Field w) = w := by
  apply BitVec.eq_of_getLsbD_eq
  intro i hi
  simp only [wordJ, opcodeField, disp11Field, BitVec.getLsbD_append, BitVec.getLsbD_extractLsb']
  interval_cases i <;> simp

theorem regBits_regField10 (w : Word) : regBits (regField10 w) = w.extractLsb' 8 3 := rfl
theorem regBits_regField7 (w : Word) : regBits (regField7 w) = w.extractLsb' 5 3 := rfl
theorem regBits_regField4 (w : Word) : regBits (regField4 w) = w.extractLsb' 2 3 := rfl

theorem wordI1_fields (w : Word) : wordI1 (opcodeField w) (regField10 w) (regField7 w) (imm5Field w) = w := by
  apply BitVec.eq_of_getLsbD_eq
  intro i hi
  simp only [wordI1, opcodeField, regBits_regField10, regBits_regField7, imm5Field, BitVec.getLsbD_append,
    BitVec.getLsbD_extractLsb']
  interval_cases i <;> simp

theorem wordI2_fields (w : Word) : wordI2 (opcodeField w) (regField10 w) (imm8Field w) = w := by
  apply BitVec.eq_of_getLsbD_eq
  intro i hi
  simp only [wordI2, opcodeField, regBits_regField10, imm8Field, BitVec.getLsbD_append, BitVec.getLsbD_extractLsb']
  interval_cases i <;> simp

theorem wordR_fields (w : Word) :
    wordR (opcodeField w) (regField10 w) (regField7 w) (regField4 w) (functField w) = w := by
  apply BitVec.eq_of_getLsbD_eq
  intro i hi
  simp only [wordR, opcodeField, regBits_regField10, regBits_regField7, regBits_regField4, functField,
    BitVec.getLsbD_append, BitVec.getLsbD_extractLsb']
  interval_cases i <;> simp

/-! ## A word with its don't-care bits cleared, from the fields left (R71) -/

theorem wordS_fields (w : Word) : wordS (opcodeField w) = w &&& ~~~0x07FF#16 := (and_opcodeMask w).symm

theorem wordSiic_fields (w : Word) : wordSiic (opcodeField w) (regField10 w) = w &&& ~~~0x00FF#16 := by
  apply BitVec.eq_of_getLsbD_eq
  intro i hi
  simp only [wordSiic, opcodeField, regBits_regField10, BitVec.getLsbD_append, BitVec.getLsbD_extractLsb',
    BitVec.getLsbD_and, BitVec.getLsbD_not]
  interval_cases i <;> simp

theorem wordI1_amountField (w : Word) :
    wordI1 (opcodeField w) (regField10 w) (regField7 w) (BitVec.ofNat 5 (amountField w).toNat) = w &&& ~~~0x0010#16 := by
  have field : BitVec.ofNat 5 (amountField w).toNat = (amountField w).setWidth 5 := BitVec.ofNat_toNat 5 _
  rw [field]
  apply BitVec.eq_of_getLsbD_eq
  intro i hi
  simp only [wordI1, opcodeField, regBits_regField10, regBits_regField7, amountField, BitVec.getLsbD_append,
    BitVec.getLsbD_extractLsb', BitVec.getLsbD_setWidth, BitVec.getLsbD_and, BitVec.getLsbD_not]
  interval_cases i <;> simp

theorem wordR_btr_fields (w : Word) :
    wordR (opcodeField w) (regField10 w) 0 (regField4 w) 0b00#2 = w &&& ~~~0x00E3#16 := by
  have none : regBits 0 = 0#3 := rfl
  apply BitVec.eq_of_getLsbD_eq
  intro i hi
  simp only [none, wordR, opcodeField, regBits_regField10, regBits_regField4, BitVec.getLsbD_append,
    BitVec.getLsbD_extractLsb', BitVec.getLsbD_and, BitVec.getLsbD_not]
  interval_cases i <;> simp

theorem wordR_set_fields (w : Word) :
    wordR (opcodeField w) (regField10 w) (regField7 w) (regField4 w) 0b00#2 = w &&& ~~~0x0003#16 := by
  apply BitVec.eq_of_getLsbD_eq
  intro i hi
  simp only [wordR, opcodeField, regBits_regField10, regBits_regField7, regBits_regField4, BitVec.getLsbD_append,
    BitVec.getLsbD_extractLsb', BitVec.getLsbD_and, BitVec.getLsbD_not]
  interval_cases i <;> simp

/-! ## The decoder, row by row (R70, R73) -/

/-- `i` is what the decoder reads `w` as: the row of its opcode, and of its function bits where they select, with the
operands taken from the row's fields. -/
inductive ReadAs (w : Word) : Instr → Prop where
  | halt (op : opcodeField w = 0b00000#5) : ReadAs w .halt
  | nop (op : opcodeField w = 0b00001#5) : ReadAs w .nop
  | siic (op : opcodeField w = 0b00010#5) : ReadAs w (.siic (regField10 w))
  | rti (op : opcodeField w = 0b00011#5) : ReadAs w .rti
  | j (op : opcodeField w = 0b00100#5) : ReadAs w (.j (disp11Field w).toInt)
  | jr (op : opcodeField w = 0b00101#5) : ReadAs w (.jr (regField10 w) (imm8Field w).toInt)
  | jal (op : opcodeField w = 0b00110#5) : ReadAs w (.jal (disp11Field w).toInt)
  | jalr (op : opcodeField w = 0b00111#5) : ReadAs w (.jalr (regField10 w) (imm8Field w).toInt)
  | addi (op : opcodeField w = 0b01000#5) : ReadAs w (.addi (regField7 w) (regField10 w) (imm5Field w).toInt)
  | subi (op : opcodeField w = 0b01001#5) : ReadAs w (.subi (regField7 w) (regField10 w) (imm5Field w).toInt)
  | xori (op : opcodeField w = 0b01010#5) : ReadAs w (.xori (regField7 w) (regField10 w) (imm5Field w).toNat)
  | andni (op : opcodeField w = 0b01011#5) : ReadAs w (.andni (regField7 w) (regField10 w) (imm5Field w).toNat)
  | beqz (op : opcodeField w = 0b01100#5) : ReadAs w (.beqz (regField10 w) (imm8Field w).toInt)
  | bnez (op : opcodeField w = 0b01101#5) : ReadAs w (.bnez (regField10 w) (imm8Field w).toInt)
  | bltz (op : opcodeField w = 0b01110#5) : ReadAs w (.bltz (regField10 w) (imm8Field w).toInt)
  | bgez (op : opcodeField w = 0b01111#5) : ReadAs w (.bgez (regField10 w) (imm8Field w).toInt)
  | st (op : opcodeField w = 0b10000#5) : ReadAs w (.st (regField7 w) (regField10 w) (imm5Field w).toInt)
  | ld (op : opcodeField w = 0b10001#5) : ReadAs w (.ld (regField7 w) (regField10 w) (imm5Field w).toInt)
  | slbi (op : opcodeField w = 0b10010#5) : ReadAs w (.slbi (regField10 w) (imm8Field w).toNat)
  | stu (op : opcodeField w = 0b10011#5) : ReadAs w (.stu (regField7 w) (regField10 w) (imm5Field w).toInt)
  | roli (op : opcodeField w = 0b10100#5) : ReadAs w (.roli (regField7 w) (regField10 w) (amountField w).toNat)
  | slli (op : opcodeField w = 0b10101#5) : ReadAs w (.slli (regField7 w) (regField10 w) (amountField w).toNat)
  | rori (op : opcodeField w = 0b10110#5) : ReadAs w (.rori (regField7 w) (regField10 w) (amountField w).toNat)
  | srli (op : opcodeField w = 0b10111#5) : ReadAs w (.srli (regField7 w) (regField10 w) (amountField w).toNat)
  | lbi (op : opcodeField w = 0b11000#5) : ReadAs w (.lbi (regField10 w) (imm8Field w).toInt)
  | btr (op : opcodeField w = 0b11001#5) : ReadAs w (.btr (regField4 w) (regField10 w))
  | rol (op : opcodeField w = 0b11010#5) (funct : functField w = 0b00#2) :
    ReadAs w (.rol (regField4 w) (regField10 w) (regField7 w))
  | sll (op : opcodeField w = 0b11010#5) (funct : functField w = 0b01#2) :
    ReadAs w (.sll (regField4 w) (regField10 w) (regField7 w))
  | ror (op : opcodeField w = 0b11010#5) (funct : functField w = 0b10#2) :
    ReadAs w (.ror (regField4 w) (regField10 w) (regField7 w))
  | srl (op : opcodeField w = 0b11010#5) (funct : functField w = 0b11#2) :
    ReadAs w (.srl (regField4 w) (regField10 w) (regField7 w))
  | add (op : opcodeField w = 0b11011#5) (funct : functField w = 0b00#2) :
    ReadAs w (.add (regField4 w) (regField10 w) (regField7 w))
  | sub (op : opcodeField w = 0b11011#5) (funct : functField w = 0b01#2) :
    ReadAs w (.sub (regField4 w) (regField10 w) (regField7 w))
  | xor (op : opcodeField w = 0b11011#5) (funct : functField w = 0b10#2) :
    ReadAs w (.xor (regField4 w) (regField10 w) (regField7 w))
  | andn (op : opcodeField w = 0b11011#5) (funct : functField w = 0b11#2) :
    ReadAs w (.andn (regField4 w) (regField10 w) (regField7 w))
  | seq (op : opcodeField w = 0b11100#5) : ReadAs w (.seq (regField4 w) (regField10 w) (regField7 w))
  | slt (op : opcodeField w = 0b11101#5) : ReadAs w (.slt (regField4 w) (regField10 w) (regField7 w))
  | sle (op : opcodeField w = 0b11110#5) : ReadAs w (.sle (regField4 w) (regField10 w) (regField7 w))
  | sco (op : opcodeField w = 0b11111#5) : ReadAs w (.sco (regField4 w) (regField10 w) (regField7 w))

/-- Opcodes 11010 and 11011 (alternatives 27 and 28) split again by the function bits, whose last value, like opcode
11111, is the one left over. -/
theorem readAs_decodeWord (w : Word) : ReadAs w (decodeWord w) := by
  have functLast (f : BitVec 2) (h0 : f ≠ 0b00#2) (h1 : f ≠ 0b01#2) (h2 : f ≠ 0b10#2) : f = 0b11#2 := by
    bv_omega
  unfold decodeWord
  split
  case h_27 =>
    split
    case h_4 h0 h1 h2 => exact .srl ‹_› (functLast _ h0 h1 h2)
    all_goals constructor <;> assumption
  case h_28 =>
    split
    case h_4 h0 h1 h2 => exact .andn ‹_› (functLast _ h0 h1 h2)
    all_goals constructor <;> assumption
  case h_32 =>
    refine .sco ?_
    simp only [imp_false] at *
    bv_omega
  all_goals constructor; assumption

/-! ## What the decoder reads is well-formed (R76) -/

theorem fitsSigned5_toInt (x : BitVec 5) : fitsSigned5 x.toInt = true := by
  have lo := x.le_toInt
  have hi := x.toInt_lt
  simp only [fitsSigned5, Bool.and_eq_true, decide_eq_true_eq]
  omega

theorem fitsSigned8_toInt (x : BitVec 8) : fitsSigned8 x.toInt = true := by
  have lo := x.le_toInt
  have hi := x.toInt_lt
  simp only [fitsSigned8, Bool.and_eq_true, decide_eq_true_eq]
  omega

theorem fitsSigned11_toInt (x : BitVec 11) : fitsSigned11 x.toInt = true := by
  have lo := x.le_toInt
  have hi := x.toInt_lt
  simp only [fitsSigned11, Bool.and_eq_true, decide_eq_true_eq]
  omega

theorem fitsUnsigned5_toNat (x : BitVec 5) : fitsUnsigned5 x.toNat = true :=
  decide_eq_true (Nat.le_of_lt_succ x.isLt)

theorem fitsUnsigned8_toNat (x : BitVec 8) : fitsUnsigned8 x.toNat = true :=
  decide_eq_true (Nat.le_of_lt_succ x.isLt)

theorem fitsAmount_toNat (x : BitVec 4) : fitsAmount x.toNat = true :=
  decide_eq_true (Nat.le_of_lt_succ x.isLt)

theorem ReadAs.wellFormed {w : Word} {i : Instr} (h : ReadAs w i) : i.wellFormed = true := by
  cases h with
  | j | jal => exact fitsSigned11_toInt _
  | jr | jalr | beqz | bnez | bltz | bgez | lbi => exact fitsSigned8_toInt _
  | addi | subi | st | ld | stu => exact fitsSigned5_toInt _
  | xori | andni => exact fitsUnsigned5_toNat _
  | slbi => exact fitsUnsigned8_toNat _
  | roli | slli | rori | srli => exact fitsAmount_toNat _
  | _ => rfl

/-- Settles O2: the encoder accepts the well-formed instructions; each of them is read from its own word, and whatever
is read from a word is one. -/
theorem encoderAcceptsExactlyTheDecodable : Obligations.EncoderAcceptsExactlyTheDecodable := by
  intro i
  refine ⟨⟨fun ⟨w, hw⟩ => ?_, fun ⟨w, hw⟩ => ?_⟩, encode_eq_none⟩
  · cases wf : i.wellFormed with
    | true => exact ⟨encodeWord i, decodeWord_encodeWord wf⟩
    | false => rw [encode_eq_none wf] at hw; cases hw
  · subst hw
    exact ⟨_, encode_eq_some (readAs_decodeWord w).wellFormed⟩

/-! ## Encoding what was read (R71, R78) -/

/-- Clearing no bit. -/
theorem and_not_zero (w : Word) : w &&& ~~~0#16 = w := BitVec.and_allOnes

theorem ReadAs.encodeWord_eq {w : Word} {i : Instr} (h : ReadAs w i) : encodeWord i = w &&& ~~~i.dontCare := by
  cases h with
  | halt op | nop op | rti op => rw [encodeWord, ← op]; exact wordS_fields w
  | siic op => rw [encodeWord, ← op]; exact wordSiic_fields w
  | j op | jal op =>
    rw [encodeWord, Instr.dontCare, and_not_zero, BitVec.ofInt_toInt, ← op, wordJ_fields]
  | jr op | jalr op | beqz op | bnez op | bltz op | bgez op | lbi op =>
    rw [encodeWord, Instr.dontCare, and_not_zero, BitVec.ofInt_toInt, ← op, wordI2_fields]
  | slbi op =>
    rw [encodeWord, Instr.dontCare, and_not_zero, BitVec.ofNat_toNat, BitVec.setWidth_eq, ← op, wordI2_fields]
  | addi op | subi op | st op | ld op | stu op =>
    rw [encodeWord, Instr.dontCare, and_not_zero, BitVec.ofInt_toInt, ← op, wordI1_fields]
  | xori op | andni op =>
    rw [encodeWord, Instr.dontCare, and_not_zero, BitVec.ofNat_toNat, BitVec.setWidth_eq, ← op, wordI1_fields]
  | roli op | slli op | rori op | srli op => rw [encodeWord, ← op]; exact wordI1_amountField w
  | btr op => rw [encodeWord, ← op]; exact wordR_btr_fields w
  | rol op funct | sll op funct | ror op funct | srl op funct | add op funct | sub op funct | xor op funct
  | andn op funct =>
    rw [encodeWord, Instr.dontCare, and_not_zero, ← op, ← funct, wordR_fields]
  | seq op | slt op | sle op | sco op => rw [encodeWord, ← op]; exact wordR_set_fields w

/-- Settles O3: in each row the encoder writes back the fields that the decoder read, and zeros elsewhere. -/
theorem encodeOfDecodeClearsDontCareBits : Obligations.EncodeOfDecodeClearsDontCareBits :=
  fun w => (readAs_decodeWord w).encodeWord_eq

/-! ## The don't-care bits select nothing (R71) -/

/-- The don't-care bits of each opcode; opcodes 11010 and 11011 have none, whatever their function bits. -/
def opcodeDontCare (op : BitVec 5) : Word :=
  if op ∈ [0b00000#5, 0b00001#5, 0b00011#5] then 0x07FF#16
  else if op = 0b00010#5 then 0x00FF#16
  else if op ∈ [0b10100#5, 0b10101#5, 0b10110#5, 0b10111#5] then 0x0010#16
  else if op = 0b11001#5 then 0x00E3#16
  else if op ∈ [0b11100#5, 0b11101#5, 0b11110#5, 0b11111#5] then 0x0003#16
  else 0#16

/-- The opcode alone decides which bits of a word select nothing. -/
theorem ReadAs.dontCare_eq {w : Word} {i : Instr} (h : ReadAs w i) : i.dontCare = opcodeDontCare (opcodeField w) := by
  cases h with
  | _ op => rw [op]; rfl

/-- No bit of the opcode is a don't-care bit. -/
theorem opcodeField_dontCare (i : Instr) : opcodeField i.dontCare = 0#5 := by
  cases i <;> simp only [Instr.dontCare] <;> rfl

theorem opcodeField_xor (w d : Word) : opcodeField (w ^^^ d) = opcodeField w ^^^ opcodeField d :=
  BitVec.extractLsb'_xor

theorem opcodeField_and (w d : Word) : opcodeField (w &&& d) = opcodeField w &&& opcodeField d :=
  BitVec.extractLsb'_and

/-- Flipping don't-care bits leaves the opcode. -/
theorem opcodeField_xor_of_dontCare {w d : Word} {i : Instr} (h : d &&& i.dontCare = d) :
    opcodeField (w ^^^ d) = opcodeField w := by
  rw [← h, opcodeField_xor, opcodeField_and, opcodeField_dontCare, BitVec.and_zero, BitVec.xor_zero]

/-- A word is read as the word with its don't-care bits cleared is. -/
theorem decodeWord_and_not_dontCare (w : Word) : decodeWord (w &&& ~~~(decodeWord w).dontCare) = decodeWord w := by
  have read := readAs_decodeWord w
  rw [← read.encodeWord_eq, decodeWord_encodeWord read.wellFormed]

theorem and_eq_self_of_and_not_eq_zero {d m : Word} (h : d &&& ~~~m = 0#16) : d &&& m = d := by
  apply BitVec.eq_of_getLsbD_eq
  intro i hi
  have bit := congrArg (BitVec.getLsbD · i) h
  simp only [BitVec.getLsbD_and, BitVec.getLsbD_not, hi, decide_true, Bool.true_and, BitVec.getLsbD_zero] at bit ⊢
  cases hd : d.getLsbD i with
  | false => rfl
  | true => simpa [hd] using bit

theorem xor_and_distrib_right (a b m : Word) : (a ^^^ b) &&& m = (a &&& m) ^^^ (b &&& m) := by
  apply BitVec.eq_of_getLsbD_eq
  intro i _
  simp only [BitVec.getLsbD_and, BitVec.getLsbD_xor, Bool.and_xor_distrib_right]

/-- Clearing bits takes back that some of them were flipped. -/
theorem xor_and_not {w d m : Word} (h : d &&& ~~~m = 0#16) : (w ^^^ d) &&& ~~~m = w &&& ~~~m := by
  rw [xor_and_distrib_right, h, BitVec.xor_zero]

/-- Settles O4: the flipped word has the same opcode, hence the same don't-care bits, and with these cleared it is the
same word. -/
theorem dontCareBitsSelectNothing : Obligations.DontCareBitsSelectNothing := by
  intro w d hd
  have opcode : opcodeField (w ^^^ d) = opcodeField w :=
    opcodeField_xor_of_dontCare (and_eq_self_of_and_not_eq_zero hd)
  have mask : (decodeWord (w ^^^ d)).dontCare = (decodeWord w).dontCare := by
    rw [(readAs_decodeWord _).dontCare_eq, (readAs_decodeWord w).dontCare_eq, opcode]
  calc decodeWord (w ^^^ d)
      = decodeWord ((w ^^^ d) &&& ~~~(decodeWord w).dontCare) := by rw [← mask, decodeWord_and_not_dontCare]
    _ = decodeWord (w &&& ~~~(decodeWord w).dontCare) := by rw [xor_and_not hd]
    _ = decodeWord w := decodeWord_and_not_dontCare w

/-! ## The opcode map (R70) -/

/-- The encoder gives every instruction a word of the row that has its mnemonic. -/
theorem opcodeOfRow : ∀ i : Instr, Laws.OpcodeOfRow.Statement i
  | .halt => Laws.OpcodeOfRow.halt
  | .nop => Laws.OpcodeOfRow.nop
  | .siic rs => Laws.OpcodeOfRow.siic rs
  | .rti => Laws.OpcodeOfRow.rti
  | .j disp => Laws.OpcodeOfRow.j disp
  | .jr rs imm => Laws.OpcodeOfRow.jr rs imm
  | .jal disp => Laws.OpcodeOfRow.jal disp
  | .jalr rs imm => Laws.OpcodeOfRow.jalr rs imm
  | .addi rd rs imm => Laws.OpcodeOfRow.addi rd rs imm
  | .subi rd rs imm => Laws.OpcodeOfRow.subi rd rs imm
  | .xori rd rs imm => Laws.OpcodeOfRow.xori rd rs imm
  | .andni rd rs imm => Laws.OpcodeOfRow.andni rd rs imm
  | .beqz rs imm => Laws.OpcodeOfRow.beqz rs imm
  | .bnez rs imm => Laws.OpcodeOfRow.bnez rs imm
  | .bltz rs imm => Laws.OpcodeOfRow.bltz rs imm
  | .bgez rs imm => Laws.OpcodeOfRow.bgez rs imm
  | .st rd rs imm => Laws.OpcodeOfRow.st rd rs imm
  | .ld rd rs imm => Laws.OpcodeOfRow.ld rd rs imm
  | .slbi rs imm => Laws.OpcodeOfRow.slbi rs imm
  | .stu rd rs imm => Laws.OpcodeOfRow.stu rd rs imm
  | .roli rd rs amount => Laws.OpcodeOfRow.roli rd rs amount
  | .slli rd rs amount => Laws.OpcodeOfRow.slli rd rs amount
  | .rori rd rs amount => Laws.OpcodeOfRow.rori rd rs amount
  | .srli rd rs amount => Laws.OpcodeOfRow.srli rd rs amount
  | .lbi rs imm => Laws.OpcodeOfRow.lbi rs imm
  | .btr rd rs => Laws.OpcodeOfRow.btr rd rs
  | .rol rd rs rt => Laws.OpcodeOfRow.rol rd rs rt
  | .sll rd rs rt => Laws.OpcodeOfRow.sll rd rs rt
  | .ror rd rs rt => Laws.OpcodeOfRow.ror rd rs rt
  | .srl rd rs rt => Laws.OpcodeOfRow.srl rd rs rt
  | .add rd rs rt => Laws.OpcodeOfRow.add rd rs rt
  | .sub rd rs rt => Laws.OpcodeOfRow.sub rd rs rt
  | .xor rd rs rt => Laws.OpcodeOfRow.xor rd rs rt
  | .andn rd rs rt => Laws.OpcodeOfRow.andn rd rs rt
  | .seq rd rs rt => Laws.OpcodeOfRow.seq rd rs rt
  | .slt rd rs rt => Laws.OpcodeOfRow.slt rd rs rt
  | .sle rd rs rt => Laws.OpcodeOfRow.sle rd rs rt
  | .sco rd rs rt => Laws.OpcodeOfRow.sco rd rs rt

/-- No row asks for a don't-care bit of its instruction. -/
theorem mask_and_dontCare (i : Instr) : ∀ r ∈ opcodeMap, r.mnemonic = i.mnemonic → r.mask &&& i.dontCare = 0#16 := by
  cases i <;> simp only [Instr.mnemonic, Instr.dontCare] <;> decide

/-- Two rows that ask for the same where both ask are one row. -/
theorem opcodeMap_apart : ∀ q ∈ opcodeMap, ∀ r ∈ opcodeMap, q.pattern &&& r.mask = r.pattern &&& q.mask → q = r := by
  decide

theorem OpcodeRow.eq_of_matchesWord {q r : OpcodeRow} {w : Word} (hq : q ∈ opcodeMap) (hr : r ∈ opcodeMap)
    (hqw : q.matchesWord w = true) (hrw : r.matchesWord w = true) : q = r := by
  simp only [OpcodeRow.matchesWord, beq_iff_eq] at hqw hrw
  refine opcodeMap_apart q hq r hr ?_
  rw [← hqw, ← hrw, BitVec.and_assoc, BitVec.and_assoc, BitVec.and_comm q.mask]

/-- Clearing bits that a row does not ask for leaves the match. -/
theorem OpcodeRow.matchesWord_of_and_not {r : OpcodeRow} {w m : Word} (hm : r.mask &&& m = 0#16)
    (h : r.matchesWord (w &&& ~~~m) = true) : r.matchesWord w = true := by
  have kept : r.mask &&& ~~~m = r.mask := by
    refine and_eq_self_of_and_not_eq_zero ?_
    rwa [BitVec.not_not]
  rwa [OpcodeRow.matchesWord, BitVec.and_assoc, BitVec.and_comm _ r.mask, kept] at h

/-- Settles O5: the encoder's word for what was read is the word but for don't-care bits, which its row does not ask
for; and no two rows have a word in common. -/
theorem opcodeMapPartitionsTheWords : Obligations.OpcodeMapPartitionsTheWords := by
  refine ⟨rfl, fun w => ?_⟩
  obtain ⟨r, hr, mnemonic, encoded⟩ := opcodeOfRow (decodeWord w)
  rw [(readAs_decodeWord w).encodeWord_eq] at encoded
  have matched : r.matchesWord w = true :=
    OpcodeRow.matchesWord_of_and_not (mask_and_dontCare _ r hr mnemonic) encoded
  exact ⟨r, hr, matched, mnemonic, fun q hq hqw => OpcodeRow.eq_of_matchesWord hq hr hqw matched⟩

/-- Settles O6: twelve evaluations of the decoder. -/
theorem writtenOutWordsDecode : Obligations.WrittenOutWordsDecode := by
  unfold Obligations.WrittenOutWordsDecode
  decide

end Sys2Proof.Machine

/-! # HALT, siic and RTI (40_halt_nop.md, 48_exception_instructions.md) -/

namespace Sys2Proof.Machine

theorem exec_halt (s : State) : exec .halt s = .next s.halt := rfl
theorem exec_siic (rs : RegNo) (s : State) : exec (.siic rs) s = .next s.takeIllegalOp := rfl
theorem exec_rti (s : State) : exec .rti s = .next (s.goto s.epc) := rfl

/-- Settles O8: HALT answers the halted state, which has one of the two values of pc, the old memory as its dump, and no
step. -/
theorem haltStopsTheMachine : Obligations.HaltStopsTheMachine := by
  intro x s
  exact ⟨decodeWord_eq_halt (opcodeField_append _ x), s.halt, exec_halt s, s.halt_halted, s.haltPc_mem, s.reg_halt,
    s.halt_epc, s.halt_written, s.byte_halt, s.halt_haltPcDraw, rfl, step_ne_next_of_halted s.halt_halted⟩

/-- Settles O31: siic answers the state that takes the exception. -/
theorem siicTakesIllegalOp : Obligations.SiicTakesIllegalOp := by
  intro rs x s
  exact ⟨decodeWord_siic rs x, s.takeIllegalOp, exec_siic rs s, s.takeIllegalOp_epc, s.takeIllegalOp_pc,
    s.reg_takeIllegalOp, s.takeIllegalOp_halted, s.takeIllegalOp_written, s.takeIllegalOp_haltPcDraw,
    s.byte_takeIllegalOp⟩

/-- Settles O32: with exception support RTI sets pc to epc, without it RTI is NOP's advance. -/
theorem rtiGoesToEpc : Obligations.RtiGoesToEpc := by
  intro x s
  exact ⟨decodeWord_eq_rti (opcodeField_append _ x), exec_goesTo (exec_rti s),
    ⟨_, rtiUnder_true s, s.goesTo_goto s.epc⟩, ⟨_, rtiUnder_false s, s.goesTo_advance⟩⟩

/-- Settles O33: the model's `siic` is the operation with exception support. -/
theorem siicWithoutSupportIsRefused : Obligations.SiicWithoutSupportIsRefused :=
  fun rs s => ⟨siicUnder_false s, (exec_siic rs s).trans (siicUnder_true s).symm⟩

end Sys2Proof.Machine

/-! # JALR and SLBI (47_jump.md R174, 46_load_immediate.md R161) -/

namespace Sys2Proof.Machine

/-- The target is computed in the state before R7 is written. -/
theorem exec_jalr (rs : RegNo) (imm : Int) (s : State) :
    exec (.jalr rs imm) s = linkAndGoto (registerTarget s rs imm) s := rfl

/-- Settles O30: JALR is a linking jump to JR's target, which the old register gives. -/
theorem jalrLinksAndJumpsFromTheOldRegister : Obligations.JalrLinksAndJumpsFromTheOldRegister := by
  intro rs imm8 s
  rw [← registerTarget_toInt]
  exact ⟨decodeWord_wordI2_jalr rs imm8, exec_writesReg_of_linkAndGoto (exec_jalr rs _ s)⟩

/-- The shift leaves the low byte zero, where the immediate comes in. -/
theorem sll16_or_unsignedImm (v : Word) (imm : BitVec 8) :
    sll16 v 8 ||| unsignedImm imm.toNat = (v.extractLsb' 0 8 ++ imm : Word) := by
  rw [unsignedImm_toNat]
  apply BitVec.eq_of_getLsbD_eq
  intro i hi
  rw [BitVec.getLsbD_or, getLsbD_sll16 v 8 hi, BitVec.getLsbD_setWidth, BitVec.getLsbD_append,
    BitVec.getLsbD_extractLsb']
  by_cases low : i < 8
  · simp [low, hi]
  · simp [low, Nat.le_of_not_lt low, show i - 8 < 8 by omega]

theorem exec_slbi (rs : RegNo) (imm : BitVec 8) (s : State) :
    exec (.slbi rs imm.toNat) s = writeReg rs ((s.reg rs).extractLsb' 0 8 ++ imm) s :=
  congrArg (writeReg rs · s) (sll16_or_unsignedImm (s.reg rs) imm)

/-- Settles O26: SLBI is a register write of the low byte and the immediate. -/
theorem slbiShiftsInTheImmediate : Obligations.SlbiShiftsInTheImmediate := by
  intro rs imm8 s
  exact ⟨decodeWord_wordI2_slbi rs imm8, exec_writesReg (exec_slbi rs imm8 s)⟩

/-- Two writes of one register leave the second value and the frame of one write. -/
theorem WritesReg.trans {s t u : State} {r : RegNo} {v w p q : Word} (first : WritesReg s t r v p)
    (second : WritesReg t u r w q) : WritesReg s u r w q where
  value := second.value
  others a ha := (second.others a ha).trans (first.others a ha)
  pc := second.pc
  epc := second.epc.trans first.epc
  halted := second.halted.trans first.halted
  written := second.written.trans first.written
  haltPcDraw := second.haltPcDraw.trans first.haltPcDraw
  bytes a := (second.bytes a).trans (first.bytes a)

/-- The low byte of a sign-extended byte is the byte. -/
theorem lowByte_signExtend (b : BitVec 8) : (b.signExtend 16).extractLsb' 0 8 = b := by
  apply BitVec.eq_of_getLsbD_eq
  intro i hi
  rw [BitVec.getLsbD_extractLsb', Nat.zero_add, BitVec.getLsbD_signExtend]
  simp [hi, show i < 16 by omega]

/-- Settles O27: LBI leaves its byte in the low half, and SLBI moves it up and appends the other. -/
theorem lbiThenSlbiLoadsAnyConstant : Obligations.LbiThenSlbiLoadsAnyConstant := by
  intro r hi lo s
  obtain ⟨t, ht, first⟩ := exec_writesReg (exec_lbi r hi.toInt s)
  obtain ⟨u, hu, second⟩ := exec_writesReg (exec_slbi r lo t)
  have both := first.trans second
  have pc : s.pc + 2#16 + 2#16 = s.pc + 4#16 := BitVec.add_assoc ..
  rw [first.value, signedImm_toInt, lowByte_signExtend, first.pc, pc] at both
  exact ⟨t, u, ht, hu, both⟩

end Sys2Proof.Machine

/-! # The comparisons SLT and SLE, and SCO as one (44_set.md) -/

namespace Sys2Proof.Machine

theorem exec_slt (rd rs rt : RegNo) (s : State) :
    exec (.slt rd rs rt) s = writeReg rd (setWord (decide ((s.reg rs).toInt < (s.reg rt).toInt))) s := rfl
theorem exec_sle (rd rs rt : RegNo) (s : State) :
    exec (.sle rd rs rt) s = writeReg rd (setWord (decide ((s.reg rs).toInt ≤ (s.reg rt).toInt))) s := rfl

/-- Settles O21: each is a register write of the word for its comparison of the two's-complement integers. -/
theorem sltAndSleCompareSigned : Obligations.SltAndSleCompareSigned := by
  intro rd rs rt x s
  have slt := exec_writesReg (exec_slt rd rs rt s)
  have sle := exec_writesReg (exec_sle rd rs rt s)
  rw [setWord_decide] at slt sle
  exact ⟨⟨decodeWord_wordR_slt rd rs rt x, slt⟩, ⟨decodeWord_wordR_sle rd rs rt x, sle⟩⟩

theorem setWord_eq_one_iff (b : Bool) : setWord b = 0x0001#16 ↔ b = true := by
  cases b <;> decide

theorem setWord_eq_zero_iff (b : Bool) : setWord b = 0x0000#16 ↔ b = false := by
  cases b <;> decide

theorem setWord_or (a b : Bool) : setWord (a || b) = setWord a ||| setWord b := by
  cases a <;> cases b <;> rfl

/-- The wrapped difference, as an integer, is the difference or off by one turn of 65536. -/
theorem toInt_sub_eq (a b : Word) :
    (a - b).toInt = a.toInt - b.toInt ∨ (a - b).toInt = a.toInt - b.toInt + 65536 ∨
      (a - b).toInt = a.toInt - b.toInt - 65536 := by
  have aLower := a.le_toInt
  have aUpper := a.toInt_lt
  have bLower := b.le_toInt
  have bUpper := b.toInt_lt
  rw [BitVec.toInt_sub, Int.bmod]
  omega

/-- The signed comparison by the sign bits: of two signs the negative one is below, and with equal signs the difference
does not wrap. -/
theorem toInt_lt_iff_signs (a b : Word) :
    a.toInt < b.toInt ↔
      (a.getLsbD 15 = true ∧ b.getLsbD 15 = false) ∨
      (a.getLsbD 15 = b.getLsbD 15 ∧ (a - b).getLsbD 15 = true) := by
  have sign (v : Word) : v.getLsbD 15 = decide (v.toInt < 0) := isNegative_eq_decide v
  have bounds (v : Word) : -32768 ≤ v.toInt ∧ v.toInt < 32768 := ⟨v.le_toInt, v.toInt_lt⟩
  have ha := bounds a
  have hb := bounds b
  have hd := bounds (a - b)
  have wrapped := toInt_sub_eq a b
  simp only [sign, decide_eq_true_eq, decide_eq_false_iff_not, decide_eq_decide]
  omega

theorem toInt_le_eq_lt_or_eq (a b : Word) :
    decide (a.toInt ≤ b.toInt) = (decide (a.toInt < b.toInt) || isEqual a b) := by
  rw [isEqual_eq_decide, ← Bool.decide_or, decide_eq_decide, ← BitVec.toInt_inj]
  exact Int.le_iff_lt_or_eq

/-- Settles O22: SLT compares the integers, which the sign bits decide, and at most is below or equal. -/
theorem sltBySignBitsAndSleAsSltOrSeq : Obligations.SltBySignBitsAndSleAsSltOrSeq := by
  intro rd rs rt s
  obtain ⟨lt, hlt, ltFrame⟩ := exec_writesReg (exec_slt rd rs rt s)
  obtain ⟨eq, heq, eqFrame⟩ := exec_writesReg (exec_seq rd rs rt s)
  obtain ⟨le, hle, leFrame⟩ := exec_writesReg (exec_sle rd rs rt s)
  refine ⟨lt, eq, le, hlt, heq, hle, ?_, ?_⟩
  · rw [ltFrame.value, setWord_eq_one_iff, decide_eq_true_eq]
    exact toInt_lt_iff_signs _ _
  · rw [leFrame.value, ltFrame.value, eqFrame.value, ← setWord_or, toInt_le_eq_lt_or_eq]

/-- The sum carries out exactly when the complement of one operand is below the other. -/
theorem carry_iff_not_toNat_lt (a b : Word) : 65536 ≤ a.toNat + b.toNat ↔ (~~~a).toNat < b.toNat := by
  have bound : a.toNat < 65536 := a.isLt
  rw [BitVec.toNat_not]
  omega

/-- Settles O23: SCO sets the carry out, which is that comparison. -/
theorem scoOfComplementComparesUnsigned : Obligations.ScoOfComplementComparesUnsigned := by
  intro rd rs rt s
  obtain ⟨t, ht, frame⟩ := exec_writesReg (exec_sco rd rs rt s)
  refine ⟨t, ht, ?_, ?_⟩
  · rw [frame.value, setWord_eq_one_iff, decide_eq_true_eq]
    exact carry_iff_not_toNat_lt _ _
  · rw [frame.value, setWord_eq_zero_iff, decide_eq_false_iff_not, carry_iff_not_toNat_lt, Nat.not_lt]

end Sys2Proof.Machine

/-! # The effect of an instruction: what it reads apart from what it changes -/

namespace Sys2Proof.Machine

/-- A change of the state whose values have all been read already. What an instruction does is an effect (`effectOf`),
so that a statement about reading is about `effectOf` and one about writing has these eight cases only. -/
inductive Effect where
  /-- A computing instruction: one register, and the default pc. -/
  | writes (rd : RegNo) (v : Word)
  /-- pc alone. -/
  | goes (p : Word)
  /-- The link register and pc. -/
  | links (p : Word)
  /-- A store, and the default pc. -/
  | stores (a v : Word)
  /-- A store, its address into a register, and the default pc. -/
  | storesAndUpdates (a v : Word) (r : RegNo)
  | takesIllegalOp
  | halts
  /-- The stop at an odd data address. -/
  | faults (a : Word)

/-- An effect, carried out. -/
def Effect.apply : Effect → State → Result
  | .writes rd v, s => writeReg rd v s
  | .goes p, s => .next (s.goto p)
  | .links p, s => linkAndGoto p s
  | .stores a v, s => .next (s.storeWord a v).advance
  | .storesAndUpdates a v r, s => writeReg r a (s.storeWord a v)
  | .takesIllegalOp, s => .next s.takeIllegalOp
  | .halts, s => .next s.halt
  | .faults a, _ => .fault (.misalignedData a)

/-- An access at `a`: the effect `e`, unless the address is odd (R47). -/
def Effect.aligned (a : Word) (e : Effect) : Effect := if isOdd a then .faults a else e

theorem Effect.aligned_of_even {a : Word} (h : isOdd a = false) (e : Effect) : Effect.aligned a e = e := by
  simp only [Effect.aligned, h, Bool.false_eq_true, if_false]

theorem Effect.aligned_of_odd {a : Word} (h : isOdd a = true) (e : Effect) : Effect.aligned a e = .faults a := by
  simp only [Effect.aligned, h, if_true]

/-- Where a branch goes. -/
def branchTarget (taken : Bool) (imm : Int) (s : State) : Word := if taken then relativeTarget s imm else s.nextPc

/-- What an instruction does in a state, as an effect; `exec_eq_apply` ties it to `exec`. -/
def effectOf (i : Instr) (s : State) : Effect :=
  match i with
  | .halt => .halts
  | .nop => .goes s.nextPc
  | .siic _ => .takesIllegalOp
  | .rti => .goes s.epc
  | .j disp => .goes (relativeTarget s disp)
  | .jr rs imm => .goes (registerTarget s rs imm)
  | .jal disp => .links (relativeTarget s disp)
  | .jalr rs imm => .links (registerTarget s rs imm)
  | .addi rd rs imm => .writes rd (s.reg rs + signedImm imm)
  | .subi rd rs imm => .writes rd (signedImm imm - s.reg rs)
  | .xori rd rs imm => .writes rd (s.reg rs ^^^ unsignedImm imm)
  | .andni rd rs imm => .writes rd (s.reg rs &&& ~~~unsignedImm imm)
  | .beqz rs imm => .goes (branchTarget (isZero (s.reg rs)) imm s)
  | .bnez rs imm => .goes (branchTarget (!isZero (s.reg rs)) imm s)
  | .bltz rs imm => .goes (branchTarget (isNegative (s.reg rs)) imm s)
  | .bgez rs imm => .goes (branchTarget (!isNegative (s.reg rs)) imm s)
  | .st rd rs imm => .aligned (effectiveAddress s rs imm) (.stores (effectiveAddress s rs imm) (s.reg rd))
  | .ld rd rs imm => .aligned (effectiveAddress s rs imm) (.writes rd (s.word (effectiveAddress s rs imm)))
  | .slbi rs imm => .writes rs (sll16 (s.reg rs) 8 ||| unsignedImm imm)
  | .stu rd rs imm =>
    .aligned (effectiveAddress s rs imm)
      (.storesAndUpdates (effectiveAddress s rs imm) (s.reg rd) (stuTarget Config.stuUpdateReg rd rs))
  | .roli rd rs amount => .writes rd (rol16 (s.reg rs) amount)
  | .slli rd rs amount => .writes rd (sll16 (s.reg rs) amount)
  | .rori rd rs amount => .writes rd (ror16 (s.reg rs) amount)
  | .srli rd rs amount => .writes rd (srl16 (s.reg rs) amount)
  | .lbi rs imm => .writes rs (signedImm imm)
  | .btr rd rs => .writes rd (reverse16 (s.reg rs))
  | .rol rd rs rt => .writes rd (rol16 (s.reg rs) (shiftAmount (s.reg rt)))
  | .sll rd rs rt => .writes rd (sll16 (s.reg rs) (shiftAmount (s.reg rt)))
  | .ror rd rs rt => .writes rd (ror16 (s.reg rs) (shiftAmount (s.reg rt)))
  | .srl rd rs rt => .writes rd (srl16 (s.reg rs) (shiftAmount (s.reg rt)))
  | .add rd rs rt => .writes rd (s.reg rs + s.reg rt)
  | .sub rd rs rt => .writes rd (s.reg rt - s.reg rs)
  | .xor rd rs rt => .writes rd (s.reg rs ^^^ s.reg rt)
  | .andn rd rs rt => .writes rd (s.reg rs &&& ~~~s.reg rt)
  | .seq rd rs rt => .writes rd (setWord (isEqual (s.reg rs) (s.reg rt)))
  | .slt rd rs rt => .writes rd (setWord (isLess (s.reg rs) (s.reg rt)))
  | .sle rd rs rt => .writes rd (setWord (isAtMost (s.reg rs) (s.reg rt)))
  | .sco rd rs rt => .writes rd (setWord (carriesOut (s.reg rs) (s.reg rt)))

/-! ## What the model executes is the effect -/

theorem execSt_eq_apply (rd rs : RegNo) (imm : Int) (s : State) :
    execSt rd rs imm s = (effectOf (.st rd rs imm) s).apply s := by
  rcases memWrite_cases s (effectiveAddress s rs imm) (s.reg rd) with ⟨even, ok⟩ | ⟨odd, error⟩
  · simp only [execSt, ok, effectOf, Effect.aligned_of_even even, Effect.apply]
  · simp only [execSt, error, effectOf, Effect.aligned_of_odd odd, Effect.apply]

theorem execLd_eq_apply (rd rs : RegNo) (imm : Int) (s : State) :
    execLd rd rs imm s = (effectOf (.ld rd rs imm) s).apply s := by
  rcases memRead_cases s (effectiveAddress s rs imm) with ⟨even, ok⟩ | ⟨odd, error⟩
  · simp only [execLd, ok, effectOf, Effect.aligned_of_even even, Effect.apply]
  · simp only [execLd, error, effectOf, Effect.aligned_of_odd odd, Effect.apply]

theorem execStu_eq_apply (rd rs : RegNo) (imm : Int) (s : State) :
    execStu rd rs imm s = (effectOf (.stu rd rs imm) s).apply s := by
  rcases memWrite_cases s (effectiveAddress s rs imm) (s.reg rd) with ⟨even, ok⟩ | ⟨odd, error⟩
  · simp only [execStu, stuUnder, ok, effectOf, Effect.aligned_of_even even, Effect.apply]
  · simp only [execStu, stuUnder, error, effectOf, Effect.aligned_of_odd odd, Effect.apply]

theorem exec_eq_apply (i : Instr) (s : State) : exec i s = (effectOf i s).apply s := by
  cases i with
  | st rd rs imm => exact execSt_eq_apply rd rs imm s
  | ld rd rs imm => exact execLd_eq_apply rd rs imm s
  | stu rd rs imm => exact execStu_eq_apply rd rs imm s
  | _ => rfl

/-! ## What an effect changes -/

/-- The general registers an effect writes. -/
def Effect.regsWritten : Effect → List RegNo
  | .writes rd _ => [rd]
  | .links _ => [linkReg]
  | .storesAndUpdates _ _ r => [r]
  | .goes _ | .stores _ _ | .takesIllegalOp | .halts | .faults _ => []

/-- The stores an effect makes: address and word. -/
def Effect.storesMade : Effect → List (Word × Word)
  | .stores a v | .storesAndUpdates a v _ => [(a, v)]
  | .writes _ _ | .goes _ | .links _ | .takesIllegalOp | .halts | .faults _ => []

theorem Effect.storesMade_aligned_stores (a v : Word) :
    (Effect.aligned a (.stores a v)).storesMade = alignedStore a v := by
  unfold Effect.aligned alignedStore; split <;> rfl

theorem Effect.storesMade_aligned_storesAndUpdates (a v : Word) (r : RegNo) :
    (Effect.aligned a (.storesAndUpdates a v r)).storesMade = alignedStore a v := by
  unfold Effect.aligned alignedStore; split <;> rfl

theorem Effect.storesMade_aligned_writes (a v : Word) (rd : RegNo) :
    (Effect.aligned a (.writes rd v)).storesMade = [] := by
  unfold Effect.aligned; split <;> rfl

/-- An instruction's effect makes the stores listed for the instruction, none where it faults. -/
theorem storesMade_effectOf (i : Instr) (s : State) : (effectOf i s).storesMade = instrStores i s := by
  cases i with
  | st rd rs imm => exact Effect.storesMade_aligned_stores _ _
  | ld rd rs imm => exact Effect.storesMade_aligned_writes _ _ rd
  | stu rd rs imm => exact Effect.storesMade_aligned_storesAndUpdates _ _ _
  | _ => rfl

/-- Either an instruction faults, or its effect writes the registers of the table of R23. -/
theorem regsWritten_effectOf (i : Instr) (s : State) :
    (∃ a, effectOf i s = .faults a) ∨ (effectOf i s).regsWritten = instrWrites i := by
  cases i with
  | st rd rs imm | ld rd rs imm | stu rd rs imm =>
    cases h : isOdd (effectiveAddress s rs imm) with
    | true => exact .inl ⟨_, Effect.aligned_of_odd h _⟩
    | false => exact .inr (congrArg Effect.regsWritten (Effect.aligned_of_even h _))
  | _ => exact .inr rfl

/-- Only `siic` takes the exception. -/
theorem eq_siic_of_effectOf {i : Instr} {s : State} (h : effectOf i s = .takesIllegalOp) : ∃ q, i = .siic q := by
  cases i with
  | siic rs => exact ⟨rs, rfl⟩
  | st rd rs imm | ld rd rs imm | stu rd rs imm =>
    simp only [effectOf, Effect.aligned] at h
    split at h <;> cases h
  | _ => cases h

/-- A store as a list of one store. -/
theorem State.byte_storeWord_eq_lastStored (s : State) (ea v a : Word) :
    (s.storeWord ea v).byte a = lastStored [(ea, v)] a (s.byte a) := by
  rw [State.byte_storeWord, lastStored, lastStored]
  by_cases high : a = ea
  · have low : a ≠ ea + 1#16 := high ▸ (word_add_one_ne a).symm
    rw [if_neg low, if_pos high, if_pos high]; rfl
  · simp only [if_neg high, lowByte]

/-- The bytes after an effect are those of its stores and otherwise the old ones. -/
theorem Effect.byte_apply {e : Effect} {s t : State} (h : e.apply s = .next t) (a : Word) :
    t.byte a = lastStored e.storesMade a (s.byte a) := by
  cases e with
  | stores ea v | storesAndUpdates ea v r => cases h; exact s.byte_storeWord_eq_lastStored ea v a
  | writes | goes | links | takesIllegalOp | halts => cases h; rfl
  | faults => cases h

/-- epc after an effect, unless it takes the exception. -/
theorem Effect.epc_apply {e : Effect} {s t : State} (h : e.apply s = .next t) (he : e ≠ .takesIllegalOp) :
    t.epc = s.epc := by
  cases e with
  | takesIllegalOp => exact absurd rfl he
  | writes | goes | links | stores | storesAndUpdates | halts => cases h; rfl
  | faults => cases h

/-- The written set after an effect that stores nothing. -/
theorem Effect.written_apply {e : Effect} {s t : State} (h : e.apply s = .next t) (he : e.storesMade = []) :
    t.written = s.written := by
  cases e with
  | stores | storesAndUpdates => cases he
  | writes | goes | links | takesIllegalOp | halts => cases h; rfl
  | faults => cases h

/-- A register that an effect does not write. -/
theorem Effect.reg_apply {e : Effect} {s t : State} {q : RegNo} (h : e.apply s = .next t) (hq : q ∉ e.regsWritten) :
    t.reg q = s.reg q := by
  cases e with
  | writes | links | storesAndUpdates => cases h; exact State.reg_setReg_other _ _ (List.ne_of_not_mem_cons hq)
  | goes | stores | takesIllegalOp | halts => cases h; rfl
  | faults => cases h

/-! ## What an instruction reads -/

/-- Two states are alike in all that an instruction reads: pc, the registers of R23, epc for RTI and memory for
LD. -/
structure SameReads (i : Instr) (s t : State) : Prop where
  pc : t.pc = s.pc
  regs : ∀ q ∈ instrReads i, t.reg q = s.reg q
  epc : i = .rti → t.epc = s.epc
  word : ∀ rd rs imm, i = .ld rd rs imm → ∀ a, t.word a = s.word a

/-- An instruction has the same effect in states that are alike in what it reads. -/
theorem effectOf_congr {i : Instr} {s t : State} (h : SameReads i s t) : effectOf i t = effectOf i s := by
  obtain ⟨pc, regs, epc, word⟩ := h
  cases i with
  | rti => exact congrArg Effect.goes (epc rfl)
  | ld rd rs imm =>
    have rs_eq := regs rs (.head _)
    simp only [effectOf, effectiveAddress, rs_eq, word rd rs imm rfl]
  | halt | siic | lbi => rfl
  | nop | j | jal => simp only [effectOf, relativeTarget, State.nextPc, pc]
  | jr rs | jalr rs | addi _ rs | subi _ rs | xori _ rs | andni _ rs | beqz rs | bnez rs | bltz rs | bgez rs | slbi rs
  | roli _ rs | slli _ rs | rori _ rs | srli _ rs | btr _ rs =>
    have rs_eq := regs rs (.head _)
    simp only [effectOf, registerTarget, branchTarget, relativeTarget, State.nextPc, pc, rs_eq]
  | st r rs | stu r rs | rol _ rs r | sll _ rs r | ror _ rs r | srl _ rs r | add _ rs r | sub _ rs r | xor _ rs r
  | andn _ rs r | seq _ rs r | slt _ rs r | sle _ rs r | sco _ rs r =>
    have rs_eq := regs rs (.head _)
    have r_eq := regs r (.tail _ (.head _))
    simp only [effectOf, effectiveAddress, rs_eq, r_eq]

end Sys2Proof.Machine

/-! # ST, LD and STU (42_load_store.md) -/

namespace Sys2Proof.Machine

/-- The base register plus the sign-extended field (R120). -/
theorem effectiveAddress_toInt {w : Nat} (s : State) (rs : RegNo) (imm : BitVec w) :
    effectiveAddress s rs imm.toInt = s.reg rs + imm.signExtend 16 := by
  rw [effectiveAddress, signedImm_toInt]

/-- The frame of a store (R45). -/
theorem State.storesAt_storeWord_advance (s : State) (a v : Word) :
    StoresAt s (s.storeWord a v).advance a v (s.pc + 2#16) where
  high := by
    refine (State.byte_storeWord s a v a).trans ?_
    rw [if_neg (word_add_one_ne a).symm, if_pos rfl, highByte]
  low := (State.byte_storeWord s a v (a + 1#16)).trans (if_pos rfl)
  others c high low := by
    refine (State.byte_storeWord s a v c).trans ?_
    rw [if_neg low, if_neg high]
  written := s.isWritten_storeWord a v
  pc := rfl
  epc := rfl
  halted := rfl
  haltPcDraw := rfl

/-- Writing a register after a store leaves the store's frame, which speaks of no register. -/
theorem StoresAt.setReg {s t : State} {a v p : Word} (h : StoresAt s t a v p) (r : RegNo) (u : Word) :
    StoresAt s (t.setReg r u) a v p where
  high := h.high
  low := h.low
  others := h.others
  written := h.written
  pc := h.pc
  epc := h.epc
  halted := h.halted
  haltPcDraw := h.haltPcDraw

/-- Settles O13: at an even address ST is a store and the default advance, which leaves every register. -/
theorem stStoresTheWordBigEndian : Obligations.StStoresTheWordBigEndian := by
  intro rd rs imm5 s
  refine ⟨decodeWord_wordI1_st rd rs imm5, effectiveAddress_toInt s rs imm5, fun even => ?_⟩
  exact ⟨_, execSt_eq_next.mpr ⟨even, rfl⟩, s.storesAt_storeWord_advance _ _, fun _ => rfl⟩

theorem exec_ld_of_even {rd rs : RegNo} {imm : Int} {s : State} (h : isOdd (effectiveAddress s rs imm) = false) :
    exec (.ld rd rs imm) s = writeReg rd (s.word (effectiveAddress s rs imm)) s := by
  rw [exec_eq_apply, effectOf, Effect.aligned_of_even h, Effect.apply]

/-- Settles O14: at an even address LD is a register write of the word there. -/
theorem ldLoadsTheWordBigEndian : Obligations.LdLoadsTheWordBigEndian := by
  intro rd rs imm5 s
  exact ⟨decodeWord_wordI1_ld rd rs imm5, effectiveAddress_toInt s rs imm5,
    fun even => exec_writesReg (exec_ld_of_even even)⟩

/-- STU at an even address under either reading (R123): ST's store, and the address in the register of the reading. -/
theorem stuUnder_of_even (u : StuUpdate) {rd rs : RegNo} {imm : Int} {s : State}
    (even : isOdd (effectiveAddress s rs imm) = false) :
    ∃ t, stuUnder u rd rs imm s = .next t ∧
      StoresAt s t (effectiveAddress s rs imm) (s.reg rd) (s.pc + 2#16) ∧
      t.reg (stuTarget u rd rs) = effectiveAddress s rs imm ∧ ∀ q, q ≠ stuTarget u rd rs → t.reg q = s.reg q :=
  ⟨_, stuUnder_eq_next.mpr ⟨even, rfl⟩, (s.storesAt_storeWord_advance _ _).setReg _ _, State.reg_setReg_same _ _ _,
    fun _ hq => State.reg_setReg_other _ _ hq⟩

/-- Settles O15: the model's STU has one of the two readings, and each has the frame of its own register. -/
theorem stuStoresAndUpdatesOneRegister : Obligations.StuStoresAndUpdatesOneRegister := by
  intro rd rs imm5 s
  refine ⟨decodeWord_wordI1_stu rd rs imm5, effectiveAddress_toInt s rs imm5, rfl, fun even => ?_⟩
  refine ⟨?_, stuUnder_of_even .rd even, stuUnder_of_even .rs even⟩
  obtain ⟨t, ht, stored, regs⟩ := stuUnder_of_even (rd := rd) Config.stuUpdateReg even
  refine ⟨t, ht, stored, ?_⟩
  cases reading : Config.stuUpdateReg with
  | rd => rw [reading] at regs; exact .inl regs
  | rs => rw [reading] at regs; exact .inr regs

theorem stuUnder_of_odd (u : StuUpdate) (rd : RegNo) {rs : RegNo} {imm : Int} {s : State}
    (odd : isOdd (effectiveAddress s rs imm) = true) :
    stuUnder u rd rs imm s = .fault (.misalignedData (effectiveAddress s rs imm)) := by
  simp only [stuUnder, memWrite, odd, if_true]

theorem exec_of_faults {i : Instr} {s : State} {a : Word} (h : effectOf i s = .faults a) :
    exec i s = .fault (.misalignedData a) := by
  rw [exec_eq_apply, h, Effect.apply]

/-- Settles O16: an aligned effect at an odd address is the fault, as STU is under either reading. -/
theorem oddDataAddressesFault : Obligations.OddDataAddressesFault := by
  intro rd rs imm s odd
  exact ⟨exec_of_faults (Effect.aligned_of_odd odd _), exec_of_faults (Effect.aligned_of_odd odd _),
    exec_of_faults (Effect.aligned_of_odd odd _), fun u => stuUnder_of_odd u rd odd⟩

end Sys2Proof.Machine

/-! # The step (10_state.md R27) -/

namespace Sys2Proof.Machine

theorem step_of_fetch_ok {s : State} {w : Word} (running : s.halted = false) (h : fetch s = .ok w) :
    step s = exec (decodeWord w) s := by
  simp only [step, running, h, Bool.false_eq_true, if_false]

theorem step_of_fetch_error {s : State} {f : Fault} (running : s.halted = false) (h : fetch s = .error f) :
    step s = .fault f := by
  simp only [step, running, h, Bool.false_eq_true, if_false]

theorem fetch_of_odd {s : State} (odd : isOdd s.pc = true) : fetch s = .error (.misalignedFetch s.pc) := if_pos odd

theorem fetch_of_written {s : State} (even : isOdd s.pc = false)
    (written : s.isWritten s.pc = true ∨ s.isWritten (s.pc + 1#16) = true) : fetch s = .error (.staleFetch s.pc) := by
  have either : (s.isWritten s.pc || s.isWritten (s.pc + 1#16)) = true := Bool.or_eq_true_iff.mpr written
  simp only [fetch, even, either, Bool.false_eq_true, if_false, if_true]

/-- Settles O35: where the fetch answers, the step runs what the fetched word decodes to. -/
theorem stepRunsTheDecodedInstruction : Obligations.StepRunsTheDecodedInstruction := by
  rintro s i running even fresh fresh' rfl
  exact step_of_fetch_ok running (fetch_eq_ok.mpr ⟨even, fresh, fresh', rfl⟩)

/-- Settles O36: the fetch looks at pc's alignment first and at the written set second. -/
theorem fetchFaultsComeFirst : Obligations.FetchFaultsComeFirst := by
  intro s running
  exact ⟨fun odd => step_of_fetch_error running (fetch_of_odd odd),
    fun even written => step_of_fetch_error running (fetch_of_written even written)⟩

end Sys2Proof.Machine

/-! # Runs: epc, the last store, the two memory arrangements, the invariant -/

namespace Sys2Proof.Machine

/-! ## epc over a run (60_exceptions.md sections 4 and 5) -/

/-- Only `siic` writes epc. -/
theorem epc_exec {i : Instr} {s t : State} (h : exec i s = .next t) (hi : ∀ q, i ≠ .siic q) : t.epc = s.epc := by
  rw [exec_eq_apply] at h
  refine Effect.epc_apply h fun taken => ?_
  obtain ⟨q, siic⟩ := eq_siic_of_effectOf taken
  exact hi q siic

/-- Along the first `k` steps from `s` no `siic` is fetched. -/
def NoSiicIn (k : Nat) (s : State) : Prop :=
  ∀ (j : Nat) (m : State) (w : Word) (q : RegNo), j < k → Sys2Proof.core.run j s = .next m → fetch m = .ok w →
    decodeWord w ≠ .siic q

/-- The rest of a run without `siic` is one too. -/
theorem NoSiicIn.tail {k : Nat} {s t : State} (h : NoSiicIn (k + 1) s) (hst : step s = .next t) : NoSiicIn k t :=
  fun j m w q hj hm => h (j + 1) m w q (Nat.succ_lt_succ hj) (run_succ_eq_next.mpr ⟨t, hst, hm⟩)

theorem epc_run_of_noSiicIn {k : Nat} {s t : State} (h : Sys2Proof.core.run k s = .next t) (hs : NoSiicIn k s) :
    t.epc = s.epc := by
  induction k generalizing s with
  | zero => cases h; rfl
  | succ k ih =>
    obtain ⟨m, hstep, hrun⟩ := run_succ_eq_next.mp h
    obtain ⟨-, w, hfetch, hexec⟩ := step_eq_next hstep
    have first : m.epc = s.epc := epc_exec hexec fun q => hs 0 s w q k.succ_pos (run_zero s) hfetch
    exact (ih hrun (hs.tail hstep)).trans first

/-- Settles O34: the siic leaves its pc + 2 in epc, the run keeps it there, and RTI goes to it. -/
theorem handlerReturnsAfterTheSiic : Obligations.HandlerReturnsAfterTheSiic := by
  intro k rs s a b hsiic hrun hno
  obtain rfl : s.takeIllegalOp = a := Host.Outcome.next.inj ((exec_siic rs s).symm.trans hsiic)
  have kept : b.epc = s.pc + 2#16 := epc_run_of_noSiicIn hrun hno
  rw [← kept]
  exact exec_goesTo (exec_rti b)

/-! ## The last store (20_memory.md R54) -/

/-- Every instruction leaves the bytes of its stores and otherwise the old ones. -/
theorem byte_exec {i : Instr} {s t : State} (h : exec i s = .next t) (a : Word) :
    t.byte a = lastStored (instrStores i s) a (s.byte a) := by
  rw [exec_eq_apply] at h
  rw [← storesMade_effectOf]
  exact Effect.byte_apply h a

theorem storesOfStep_eq {s : State} {w : Word} (h : fetch s = .ok w) :
    storesOfStep s = instrStores (decodeWord w) s := by
  simp only [storesOfStep, h]

theorem storesOfRun_succ {k : Nat} {s t : State} (h : step s = .next t) :
    storesOfRun (k + 1) s = storesOfStep s ++ storesOfRun k t := by
  simp only [storesOfRun, h]

theorem lastStored_append (l l' : List (Word × Word)) (a : Word) (b : Byte) :
    lastStored (l ++ l') a b = lastStored l' a (lastStored l a b) := by
  induction l generalizing b with
  | nil => rfl
  | cons e l ih => exact ih _

theorem byte_step {s t : State} (h : step s = .next t) (a : Word) :
    t.byte a = lastStored (storesOfStep s) a (s.byte a) := by
  obtain ⟨-, w, hfetch, hexec⟩ := step_eq_next h
  rw [storesOfStep_eq hfetch]
  exact byte_exec hexec a

theorem byte_run {k : Nat} {s t : State} (h : Sys2Proof.core.run k s = .next t) (a : Word) :
    t.byte a = lastStored (storesOfRun k s) a (s.byte a) := by
  induction k generalizing s with
  | zero => cases h; rfl
  | succ k ih =>
    obtain ⟨m, hstep, hrun⟩ := run_succ_eq_next.mp h
    rw [storesOfRun_succ hstep, lastStored_append, ← byte_step hstep]
    exact ih hrun

/-- Settles O47: each step appends its stores to those of the run so far, and LD reads the two bytes they leave. -/
theorem loadsReturnTheLastStore : Obligations.LoadsReturnTheLastStore := by
  intro k s t hrun
  refine ⟨byte_run hrun, fun rd rs imm even => ?_⟩
  obtain ⟨u, hu, frame⟩ := exec_writesReg (exec_ld_of_even (rd := rd) even)
  refine ⟨u, hu, ?_⟩
  rw [frame.value, ← byte_run hrun, ← byte_run hrun]
  rfl

/-! ## Unwritten bytes (20_memory.md section 6) -/

/-- A store lists the two addresses it changes. -/
theorem State.unwritten_storeWord (s : State) (ea v a : Word) :
    (s.isWritten a = true → (s.storeWord ea v).isWritten a = true) ∧
    ((s.storeWord ea v).isWritten a = false → (s.storeWord ea v).byte a = s.byte a) := by
  rw [State.isWritten_storeWord, State.byte_storeWord]
  refine ⟨fun old => by rw [old]; rfl, fun fresh => ?_⟩
  simp only [Bool.or_eq_false_iff, beq_eq_false_iff_ne] at fresh
  obtain ⟨⟨-, high⟩, low⟩ := fresh
  rw [if_neg low, if_neg high]

/-- The written set only grows, and a byte outside it is as before. -/
theorem unwritten_exec {i : Instr} {s t : State} (h : exec i s = .next t) (a : Word) :
    (s.isWritten a = true → t.isWritten a = true) ∧ (t.isWritten a = false → t.byte a = s.byte a) := by
  cases exec_nextShape h with
  | register _ _ h | goes _ h | links _ h | takesIllegalOp h | halts h => subst h; exact ⟨id, fun _ => rfl⟩
  | stores ea v _ h | storesAndUpdates ea v _ _ h => subst h; exact s.unwritten_storeWord ea v a

/-- Settles O46: a step is the execution of an instruction, and a store lists the two addresses it changes. -/
theorem unwrittenBytesKeepTheImage : Obligations.UnwrittenBytesKeepTheImage := by
  intro s t hstep
  obtain ⟨-, w, -, hexec⟩ := step_eq_next hstep
  exact ⟨fun a => (unwritten_exec hexec a).1, fun a => (unwritten_exec hexec a).2⟩

/-! ## The two memory arrangements (20_memory.md R49) -/

/-- `insnByte` holds, where no store has written, what memory holds. -/
def AgreesUnwritten (insnByte : State → Word → Byte) (s : State) : Prop :=
  ∀ a : Word, s.isWritten a = false → insnByte s a = s.byte a

/-- A step that goes on fetched two unwritten bytes, so the other arrangement takes it too. -/
theorem stepFetchingFrom_eq_next {insnByte : State → Word → Byte} {s t : State} (h : step s = .next t)
    (agree : AgreesUnwritten insnByte s) : stepFetchingFrom insnByte s = .next t := by
  obtain ⟨running, w, hfetch, hexec⟩ := step_eq_next h
  obtain ⟨even, fresh, fresh', rfl⟩ := fetch_eq_ok.mp hfetch
  have first := agree _ fresh
  have second := agree _ fresh'
  simp only [stepFetchingFrom, running, even, Bool.false_eq_true, if_false, first, second]
  exact hexec

/-- The simulation: agreement that every step keeps carries a run over to the other arrangement. -/
theorem runFetchingFrom_eq_next {insnByte : State → Word → Byte}
    (keep : ∀ s t, step s = .next t → AgreesUnwritten insnByte s → AgreesUnwritten insnByte t)
    {k : Nat} {s t : State} (h : Sys2Proof.core.run k s = .next t) (agree : AgreesUnwritten insnByte s) :
    runFetchingFrom insnByte k s = .next t := by
  induction k generalizing s with
  | zero => exact h
  | succ k ih =>
    obtain ⟨m, hstep, hrun⟩ := run_succ_eq_next.mp h
    simp only [runFetchingFrom, stepFetchingFrom_eq_next hstep agree]
    exact ih hrun (keep s m hstep agree)

/-- A copy of the image goes on agreeing: what is unwritten after a step was unwritten before it and is unchanged. -/
theorem agreesUnwritten_image_step (image : Word → Byte) {s t : State} (h : step s = .next t)
    (agree : AgreesUnwritten (fun _ => image) s) : AgreesUnwritten (fun _ => image) t := by
  obtain ⟨grows, kept⟩ := unwrittenBytesKeepTheImage s t h
  intro a fresh
  have old : s.isWritten a = false := Bool.eq_false_of_not_eq_true fun hw => by
    rw [grows a hw] at fresh; cases fresh
  exact (agree a old).trans (kept a fresh).symm

/-- Settles O48: both arrangements agree with memory on the unwritten bytes, the copy by the step's frame and the data
memory by being it. -/
theorem splitAndUnifiedMemoryAgree : Obligations.SplitAndUnifiedMemoryAgree := by
  intro image k s t agree hrun
  exact ⟨runFetchingFrom_eq_next (fun _ _ => agreesUnwritten_image_step image) hrun agree,
    runFetchingFrom_eq_next (fun _ _ _ _ _ _ => rfl) hrun (fun _ _ => rfl)⟩

/-! ## The invariant -/

theorem isOdd_eq_decide (a : Word) : isOdd a = decide (a.toNat % 2 = 1) := by
  simp only [isOdd, BitVec.getLsbD, Nat.testBit_zero]

/-- The next sequential address has the parity of pc, over the wrap too. -/
theorem isOdd_nextPc (s : State) : isOdd s.nextPc = isOdd s.pc := by
  rw [isOdd_eq_decide, isOdd_eq_decide, decide_eq_decide, State.nextPc, BitVec.toNat_add]
  simp only [BitVec.toNat_ofNat]
  omega

/-- Every instruction keeps the invariant at an even pc. -/
theorem inv_exec {i : Instr} {s t : State} (inv : s.Inv) (even : isOdd s.pc = false) (h : exec i s = .next t) :
    t.Inv := by
  obtain ⟨mem, written, epc⟩ := inv
  cases exec_nextShape h with
  | register _ _ h | goes _ h | links _ h | halts h => subst h; exact ⟨mem, written, epc⟩
  | stores a v _ h | storesAndUpdates a v _ _ h =>
    subst h
    exact ⟨State.mem_wf_storeWord a v mem, State.written_wf_storeWord a v written, epc⟩
  | takesIllegalOp h => subst h; exact ⟨mem, written, (isOdd_nextPc s).trans even⟩

/-- Settles O50: the fetch answers at an even pc alone, where every instruction keeps the invariant. -/
theorem everyStepKeepsTheInvariant : Obligations.EveryStepKeepsTheInvariant := by
  intro s t inv hstep
  obtain ⟨-, w, hfetch, hexec⟩ := step_eq_next hstep
  obtain ⟨even, -⟩ := fetch_eq_ok.mp hfetch
  exact inv_exec inv even hexec

end Sys2Proof.Machine

/-! # Who reads and writes what (10_state.md sections 1 to 9) -/

namespace Sys2Proof.Machine

/-! ## The next pc (R27) -/

/-- The pc after a branch on a condition, in the form of the table. -/
theorem pc_mem_of_branchIf {i : Instr} {s t : State} {p : Prop} [Decidable p] {imm : Int}
    (hi : exec i s = branchIf (decide p) imm s) (h : exec i s = .next t) :
    t.pc ∈ [if p then s.nextPc + signedImm imm else s.nextPc] := by
  obtain rfl := branchIf_eq_next.mp (hi.symm.trans h)
  simp only [State.goto_pc, decide_eq_true_eq, relativeTarget, List.mem_singleton]

/-- Settles O37: each shape of a next state has its pc, and a branch chooses between the two of its row. -/
theorem nextPcOfEveryInstruction : Obligations.NextPcOfEveryInstruction := by
  intro i s t h
  cases i with
  | halt =>
    cases h
    simpa only [instrNextPcs, State.halt_pc, List.mem_cons, List.not_mem_nil, or_false] using s.haltPc_mem
  | beqz rs imm => exact pc_mem_of_branchIf (exec_beqz rs imm s) h
  | bnez rs imm => exact pc_mem_of_branchIf (exec_bnez rs imm s) h
  | bltz rs imm => exact pc_mem_of_branchIf (exec_bltz rs imm s) h
  | bgez rs imm => exact pc_mem_of_branchIf (exec_bgez rs imm s) h
  | st rd rs imm =>
    obtain ⟨-, rfl⟩ := execSt_eq_next.mp h
    exact .head _
  | ld rd rs imm =>
    obtain ⟨-, rfl⟩ := execLd_eq_next.mp h
    exact .head _
  | stu rd rs imm =>
    obtain ⟨-, rfl⟩ := stuUnder_eq_next.mp h
    exact .head _
  | _ => cases h; exact .head _

/-! ## Where an instruction stops (20_memory.md R47) -/

theorem Effect.apply_ne_refused (e : Effect) (s : State) (r : Refusal) : e.apply s ≠ .refused r := by
  cases e <;> exact nofun

theorem Effect.apply_eq_fault {e : Effect} {s : State} {f : Fault} :
    e.apply s = .fault f ↔ ∃ a, e = .faults a ∧ f = .misalignedData a := by
  cases e with
  | faults a => simp only [Effect.apply, Host.Outcome.fault.injEq, Effect.faults.injEq, exists_eq_left', eq_comm]
  | writes | goes | links | stores | storesAndUpdates | takesIllegalOp | halts =>
    exact ⟨nofun, fun ⟨_, h, _⟩ => nomatch h⟩

/-- An aligned effect, itself no fault, faults at an odd address alone. -/
theorem Effect.aligned_eq_faults {a b : Word} {e : Effect} (he : ∀ c, e ≠ .faults c) :
    Effect.aligned a e = .faults b ↔ isOdd a = true ∧ b = a := by
  cases h : isOdd a with
  | false =>
    rw [Effect.aligned_of_even h]
    exact ⟨fun hb => absurd hb (he b), fun ⟨odd, _⟩ => nomatch odd⟩
  | true => rw [Effect.aligned_of_odd h, Effect.faults.injEq, eq_comm, and_iff_right rfl]

/-- The instructions that fault are the three memory instructions at an odd address. -/
theorem effectOf_eq_faults {i : Instr} {s : State} {a : Word} :
    effectOf i s = .faults a ↔
      ∃ rd rs imm, (i = .ld rd rs imm ∨ i = .st rd rs imm ∨ i = .stu rd rs imm) ∧
        isOdd (effectiveAddress s rs imm) = true ∧ a = effectiveAddress s rs imm := by
  constructor
  · intro h
    cases i with
    | ld rd rs imm => exact ⟨rd, rs, imm, .inl rfl, (Effect.aligned_eq_faults fun _ e => by cases e).mp h⟩
    | st rd rs imm => exact ⟨rd, rs, imm, .inr (.inl rfl), (Effect.aligned_eq_faults fun _ e => by cases e).mp h⟩
    | stu rd rs imm => exact ⟨rd, rs, imm, .inr (.inr rfl), (Effect.aligned_eq_faults fun _ e => by cases e).mp h⟩
    | _ => cases h
  · rintro ⟨rd, rs, imm, rfl | rfl | rfl, odd, rfl⟩ <;> exact Effect.aligned_of_odd odd _

/-- Settles O39: no effect is a refusal, and the faulting ones are those of the three memory instructions. -/
theorem onlyMisalignedDataStopsAnInstruction : Obligations.OnlyMisalignedDataStopsAnInstruction := by
  refine ⟨fun i s r => ?_, fun i s f => ?_⟩
  · rw [exec_eq_apply]
    exact Effect.apply_ne_refused _ s r
  · rw [exec_eq_apply, Effect.apply_eq_fault]
    constructor
    · rintro ⟨a, faults, rfl⟩
      obtain ⟨rd, rs, imm, memory, odd, rfl⟩ := effectOf_eq_faults.mp faults
      exact ⟨rd, rs, imm, memory, odd, rfl⟩
    · rintro ⟨rd, rs, imm, memory, odd, rfl⟩
      exact ⟨_, effectOf_eq_faults.mpr ⟨rd, rs, imm, memory, odd, rfl⟩, rfl⟩

/-! ## An update that an instruction does not read -/

/-- If two states are alike in what the instruction reads and its effect carries the update over, so does the
instruction. -/
theorem exec_update {i : Instr} {s s' : State} {f : State → State} (reads : SameReads i s s')
    (carries : (effectOf i s).apply s' = mapNext f ((effectOf i s).apply s)) : exec i s' = mapNext f (exec i s) := by
  rw [exec_eq_apply, exec_eq_apply, effectOf_congr reads, carries]

/-! ## Registers (R23) -/

/-- Writing `rd` after `q`: `q` keeps its value unless it is `rd`. -/
theorem State.setReg_setReg (s : State) (q rd : RegNo) (v u : Word) :
    (s.setReg q v).setReg rd u = if q ∈ [rd] then s.setReg rd u else (s.setReg rd u).setReg q v := by
  by_cases h : q = rd
  · subst h
    rw [if_pos (.head _), State.setReg_setReg_same]
  · rw [if_neg (List.not_mem_cons_of_ne_of_not_mem h List.not_mem_nil), State.setReg_setReg_comm s v u h]

theorem State.setReg_setReg_goto (s : State) (q rd : RegNo) (v u p : Word) :
    ((s.setReg q v).setReg rd u).goto p =
      if q ∈ [rd] then (s.setReg rd u).goto p else ((s.setReg rd u).goto p).setReg q v := by
  rw [State.setReg_setReg, apply_ite (State.goto · p), State.setReg_goto _ q]

/-- An effect carries the value of a register over, unless it writes the register. -/
theorem Effect.apply_setReg (e : Effect) (s : State) (q : RegNo) (v : Word) :
    e.apply (s.setReg q v) = mapNext (fun t => if q ∈ e.regsWritten then t else t.setReg q v) (e.apply s) := by
  cases e with
  | writes rd u => exact congrArg Host.Outcome.next (s.setReg_setReg_goto q rd v u s.nextPc)
  | links p => exact congrArg Host.Outcome.next (s.setReg_setReg_goto q linkReg v s.nextPc p)
  | storesAndUpdates a u r => exact congrArg Host.Outcome.next ((s.storeWord a u).setReg_setReg_goto q r v a s.nextPc)
  | goes | stores | takesIllegalOp | halts | faults => rfl

theorem SameReads.setReg {i : Instr} {q : RegNo} (hq : q ∉ instrReads i) (s : State) (v : Word) :
    SameReads i s (s.setReg q v) where
  pc := rfl
  regs _ hr := State.reg_setReg_other s v fun e => hq (e ▸ hr)
  epc _ := rfl
  word _ _ _ _ a := s.word_setReg q v a

/-- Settles O40: the effect writes the registers of the table and is the same whatever an unread register holds. -/
theorem registerRolesAreThoseOfTheTable : Obligations.RegisterRolesAreThoseOfTheTable := by
  refine ⟨fun i s t q h hq => ?_, fun i s q v hq => ?_⟩
  · rw [exec_eq_apply] at h
    rcases regsWritten_effectOf i s with ⟨a, faults⟩ | written
    · rw [faults] at h
      cases h
    · exact Effect.reg_apply h (written ▸ hq)
  · refine exec_update (.setReg hq s v) ?_
    rcases regsWritten_effectOf i s with ⟨a, faults⟩ | written
    · rw [faults]
      rfl
    · rw [Effect.apply_setReg, written]

/-! ## epc (R31) -/

/-- An effect other than the exception carries epc over. -/
theorem Effect.apply_withEpc {e : Effect} (he : e ≠ .takesIllegalOp) (s : State) (v : Word) :
    e.apply { s with epc := v } = mapNext (fun t => { t with epc := v }) (e.apply s) := by
  cases e with
  | takesIllegalOp => exact absurd rfl he
  | writes | goes | links | stores | storesAndUpdates | halts | faults => rfl

theorem SameReads.withEpc {i : Instr} (hi : i ≠ .rti) (s : State) (v : Word) : SameReads i s { s with epc := v } where
  pc := rfl
  regs _ _ := rfl
  epc h := absurd h hi
  word _ _ _ _ _ := rfl

/-- Settles O41: RTI alone reads epc and the exception alone writes it, whatever it was. -/
theorem epcIsWrittenBySiicAndReadByRti : Obligations.EpcIsWrittenBySiicAndReadByRti := by
  refine ⟨fun i s v rti siic => ?_, fun q s v => ?_, fun i s t h siic => epc_exec h siic⟩
  · refine exec_update (.withEpc rti s v) (Effect.apply_withEpc (fun taken => ?_) s v)
    obtain ⟨q, hq⟩ := eq_siic_of_effectOf taken
    exact siic q hq
  · rw [exec_siic, exec_siic]
    rfl

/-! ## Memory and the written set (R33, R34) -/

/-- ST and STU alone store. -/
theorem instrStores_eq_nil {i : Instr} (hi : ∀ rd rs imm, i ≠ .st rd rs imm ∧ i ≠ .stu rd rs imm) (s : State) :
    instrStores i s = [] := by
  cases i with
  | st rd rs imm => exact absurd rfl (hi rd rs imm).1
  | stu rd rs imm => exact absurd rfl (hi rd rs imm).2
  | _ => rfl

/-- An effect that stores nothing carries the memory over. -/
theorem Effect.apply_withMem {e : Effect} (he : e.storesMade = []) (s : State) (m : Memory) :
    e.apply { s with mem := m } = mapNext (fun t => { t with mem := m }) (e.apply s) := by
  cases e with
  | stores | storesAndUpdates => cases he
  | writes | goes | links | takesIllegalOp | halts | faults => rfl

theorem SameReads.withMem {i : Instr} (hi : ∀ rd rs imm, i ≠ .ld rd rs imm) (s : State) (m : Memory) :
    SameReads i s { s with mem := m } where
  pc := rfl
  regs _ _ := rfl
  epc _ := rfl
  word rd rs imm h _ := absurd h (hi rd rs imm)

/-- Settles O42: LD alone reads memory, and an effect without stores writes none of it. -/
theorem onlyLoadsAndStoresReachMemory : Obligations.OnlyLoadsAndStoresReachMemory := by
  refine ⟨fun i s m hi => ?_, fun i s t h hi => ?_⟩
  · have storeless : (effectOf i s).storesMade = [] :=
      (storesMade_effectOf i s).trans (instrStores_eq_nil (fun rd rs imm => (hi rd rs imm).2) s)
    exact exec_update (.withMem (fun rd rs imm => (hi rd rs imm).1) s m) (Effect.apply_withMem storeless s m)
  · have none := instrStores_eq_nil hi s
    refine ⟨fun a => ?_, ?_⟩
    · rw [byte_exec h a, none, lastStored]
    · rw [exec_eq_apply] at h
      exact Effect.written_apply h ((storesMade_effectOf i s).trans none)

/-- Up to the written set an effect is the same whatever is listed as written. -/
theorem Effect.apply_withWritten (e : Effect) (s : State) (l : AddrSet) :
    mapNext (fun t => { t with written := [] }) (e.apply { s with written := l }) =
      mapNext (fun t => { t with written := [] }) (e.apply s) := by
  cases e <;> rfl

theorem SameReads.withWritten (i : Instr) (s : State) (l : AddrSet) : SameReads i s { s with written := l } where
  pc := rfl
  regs _ _ := rfl
  epc _ := rfl
  word _ _ _ _ _ := rfl

/-- Settles O43: no instruction reads the written set, and an effect only adds to it. -/
theorem instructionsDoNotReadTheWrittenSet : Obligations.InstructionsDoNotReadTheWrittenSet := by
  intro i s l
  rw [exec_eq_apply, exec_eq_apply, effectOf_congr (.withWritten i s l), Effect.apply_withWritten]

/-! ## The configuration and the draw of `HALT_PC` (R36) -/

theorem toRunConfig_exec {i : Instr} {s t : State} (h : exec i s = .next t) : t.toRunConfig = s.toRunConfig := by
  cases exec_nextShape h with
  | register _ _ h | goes _ h | links _ h | stores _ _ _ h | storesAndUpdates _ _ _ _ h | takesIllegalOp h | halts h =>
    subst h; rfl

theorem toRunConfig_step {s t : State} (h : step s = .next t) : t.toRunConfig = s.toRunConfig := by
  obtain ⟨-, w, -, hexec⟩ := step_eq_next h
  exact toRunConfig_exec hexec

theorem toRunConfig_run {k : Nat} {s t : State} (h : Sys2Proof.core.run k s = .next t) :
    t.toRunConfig = s.toRunConfig := by
  induction k generalizing s with
  | zero => cases h; rfl
  | succ k ih =>
    obtain ⟨m, hstep, hrun⟩ := run_succ_eq_next.mp h
    exact (ih hrun).trans (toRunConfig_step hstep)

/-- Settles O44: no shape of a next state touches the configuration, so no run does. -/
theorem noRunChangesTheConfiguration : Obligations.NoRunChangesTheConfiguration :=
  ⟨fun _ _ _ => toRunConfig_exec, fun _ _ _ => toRunConfig_run⟩

/-- The state under another draw of `HALT_PC`. -/
def State.withDraw (s : State) (n : Nat) : State := { s with haltPcDraw := n }

/-- An effect other than the halt carries the draw over. -/
theorem Effect.apply_withDraw {e : Effect} (he : e ≠ .halts) (s : State) (n : Nat) :
    e.apply (s.withDraw n) = mapNext (·.withDraw n) (e.apply s) := by
  cases e with
  | halts => exact absurd rfl he
  | writes | goes | links | stores | storesAndUpdates | takesIllegalOp | faults => rfl

theorem SameReads.withDraw (i : Instr) (s : State) (n : Nat) : SameReads i s (s.withDraw n) where
  pc := rfl
  regs _ _ := rfl
  epc _ := rfl
  word _ _ _ _ _ := rfl

/-- An instruction carries the draw over or halts the machine under either draw. -/
theorem exec_withDraw (i : Instr) (s : State) (n : Nat) :
    exec i (s.withDraw n) = mapNext (·.withDraw n) (exec i s) ∨
      (exec i s = .next s.halt ∧ exec i (s.withDraw n) = .next (s.withDraw n).halt) := by
  by_cases h : effectOf i s = .halts
  · refine .inr ⟨?_, ?_⟩
    · rw [exec_eq_apply, h]; rfl
    · rw [exec_eq_apply, effectOf_congr (.withDraw i s n), h]; rfl
  · exact .inl (exec_update (.withDraw i s n) (Effect.apply_withDraw h s n))

/-- The fetch does not read the draw. -/
theorem fetch_withDraw (s : State) (n : Nat) : fetch (s.withDraw n) = fetch s := rfl

/-- A step carries the draw over or halts the machine under either draw. -/
theorem step_withDraw (s : State) (n : Nat) :
    step (s.withDraw n) = mapNext (·.withDraw n) (step s) ∨
      (step s = .next s.halt ∧ step (s.withDraw n) = .next (s.withDraw n).halt) := by
  have halted : (s.withDraw n).halted = s.halted := rfl
  rw [step, step, halted, fetch_withDraw]
  cases s.halted with
  | true => exact .inl rfl
  | false =>
    cases fetch s with
    | error f => exact .inl rfl
    | ok w => exact exec_withDraw (decodeWord w) s n

/-- Outcomes that are the same but for the draw, and for the pc of a halted state, which is one of the two for one
address. -/
inductive SameButDraw : Result → Result → Prop where
  | fault (f : Fault) : SameButDraw (.fault f) (.fault f)
  | refused (r : Refusal) : SameButDraw (.refused r) (.refused r)
  | next {t u : State} (h : u.toArchState = t.toArchState) : SameButDraw (.next t) (.next u)
  | halted {t u : State} (p : Word) (h : t.halted = true) (arch : u.toArchState = { t.toArchState with pc := u.pc })
    (ht : t.pc = p ∨ t.pc = p + 2#16) (hu : u.pc = p ∨ u.pc = p + 2#16) : SameButDraw (.next t) (.next u)

theorem run_succ_of_next {s t : State} (k : Nat) (h : step s = .next t) :
    Sys2Proof.core.run (k + 1) s = Sys2Proof.core.run k t := by
  have h' : Sys2Proof.core.step s = .next t := h
  simp only [Host.Core.run, h']

theorem run_succ_of_fault {s : State} {f : Fault} (k : Nat) (h : step s = .fault f) :
    Sys2Proof.core.run (k + 1) s = .fault f := by
  have h' : Sys2Proof.core.step s = .fault f := h
  simp only [Host.Core.run, h']

theorem run_succ_of_refused {s : State} {r : Refusal} (k : Nat) (h : step s = .refused r) :
    Sys2Proof.core.run (k + 1) s = .refused r := by
  have h' : Sys2Proof.core.step s = .refused r := h
  simp only [Host.Core.run, h']

/-- A halted machine runs no further. -/
theorem run_succ_of_halted (k : Nat) {s : State} (h : s.halted = true) :
    Sys2Proof.core.run (k + 1) s = .fault .halted :=
  run_succ_of_fault k (if_pos h)

/-- From a state and the same under another draw, all runs are the same but for the draw. -/
theorem run_withDraw (k : Nat) (s : State) (n : Nat) :
    SameButDraw (Sys2Proof.core.run k s) (Sys2Proof.core.run k (s.withDraw n)) := by
  induction k generalizing s with
  | zero => exact .next rfl
  | succ k ih =>
    rcases step_withDraw s n with carried | ⟨halts, halts'⟩
    · cases h : step s with
      | next t =>
        rw [h] at carried
        rw [run_succ_of_next k h, run_succ_of_next k carried]
        exact ih t
      | fault f =>
        rw [h] at carried
        rw [run_succ_of_fault k h, run_succ_of_fault k carried]
        exact .fault f
      | refused r =>
        rw [h] at carried
        rw [run_succ_of_refused k h, run_succ_of_refused k carried]
        exact .refused r
    · rw [run_succ_of_next k halts, run_succ_of_next k halts']
      cases k with
      | zero => exact .halted s.pc rfl rfl s.haltPc_mem (s.withDraw n).haltPc_mem
      | succ k =>
        rw [run_succ_of_halted k s.halt_halted, run_succ_of_halted k (s.withDraw n).halt_halted]
        exact .fault .halted

/-- Settles O45: the two runs keep step until a HALT, which leaves one of its two values of pc and ends them. -/
theorem haltPcDrawReachesOnlyThePcAfterHalt : Obligations.HaltPcDrawReachesOnlyThePcAfterHalt := by
  intro k s n
  have same : SameButDraw (Sys2Proof.core.run k s) (Sys2Proof.core.run k { s with haltPcDraw := n }) :=
    run_withDraw k s n
  generalize Sys2Proof.core.run k s = o, Sys2Proof.core.run k { s with haltPcDraw := n } = o' at same
  cases same with
  | fault f => exact ⟨fun _ h => h, nofun, nofun⟩
  | refused r => exact ⟨nofun, fun _ h => h, nofun⟩
  | next arch =>
    refine ⟨nofun, nofun, fun t h => ?_⟩
    cases h
    exact ⟨_, rfl, .inl arch⟩
  | halted p halted arch ht hu =>
    refine ⟨nofun, nofun, fun t h => ?_⟩
    cases h
    exact ⟨_, rfl, .inr ⟨halted, arch, p, ht, hu⟩⟩

end Sys2Proof.Machine

/-! # The canonical memory and reset (20_memory.md section 1, 10_state.md section 8) -/

namespace Sys2Proof.Machine

/-! ## Reads of a canonical memory -/

theorem Memory.wfFrom_cons {lo a : Nat} {v : Byte} {m : Memory} :
    Memory.wfFrom lo ((a, v) :: m) = true ↔
      lo ≤ a ∧ a < 65536 ∧ v ≠ Memory.unlisted ∧ Memory.wfFrom (a + 1) m = true := by
  simp only [Memory.wfFrom, Bool.and_eq_true, decide_eq_true_eq, bne_iff_ne, and_assoc]

theorem Memory.read_cons_same (a : Nat) (v : Byte) (m : Memory) : Memory.read ((a, v) :: m) a = v := if_pos rfl

theorem Memory.read_cons_other {a c : Nat} (v : Byte) (m : Memory) (h : c ≠ a) :
    Memory.read ((a, v) :: m) c = Memory.read m c := if_neg h

/-- Nothing is listed outside the addresses from `lo` to 65535. -/
theorem Memory.read_of_wfFrom {lo c : Nat} {m : Memory} (h : Memory.wfFrom lo m = true) (hc : c < lo ∨ 65536 ≤ c) :
    Memory.read m c = Memory.unlisted := by
  induction m generalizing lo with
  | nil => rfl
  | cons e m ih =>
    obtain ⟨a, v⟩ := e
    obtain ⟨lower, upper, -, rest⟩ := Memory.wfFrom_cons.mp h
    rw [Memory.read_cons_other v m (by omega)]
    exact ih rest (by omega)

/-- A canonical memory whose first address is not below `a` does not list `a`, which another lists. -/
theorem Memory.read_ne_of_wfFrom {a : Nat} {u : Byte} {m n : Memory} (hu : u ≠ Memory.unlisted)
    (hn : Memory.wfFrom (a + 1) n = true) : Memory.read ((a, u) :: m) a ≠ Memory.read n a := by
  rw [Memory.read_cons_same, Memory.read_of_wfFrom hn (.inl a.lt_succ_self)]
  exact hu

/-- Canonical memories that read alike are equal: their first addresses and bytes are, and then the rest reads alike. -/
theorem Memory.eq_of_read_eq {lo : Nat} {m n : Memory} (hm : Memory.wfFrom lo m = true)
    (hn : Memory.wfFrom lo n = true) (h : ∀ c, Memory.read m c = Memory.read n c) : m = n := by
  induction m generalizing lo n with
  | nil =>
    cases n with
    | nil => rfl
    | cons e n =>
      obtain ⟨b, v⟩ := e
      obtain ⟨-, -, hv, -⟩ := Memory.wfFrom_cons.mp hn
      exact absurd (h b).symm (Memory.read_ne_of_wfFrom hv rfl)
  | cons e m ih =>
    obtain ⟨a, u⟩ := e
    obtain ⟨loa, aTop, hu, hm'⟩ := Memory.wfFrom_cons.mp hm
    cases n with
    | nil => exact absurd (h a) (Memory.read_ne_of_wfFrom hu rfl)
    | cons e n =>
      obtain ⟨b, v⟩ := e
      obtain ⟨lob, bTop, hv, hn'⟩ := Memory.wfFrom_cons.mp hn
      rcases Nat.lt_trichotomy a b with below | rfl | above
      · exact absurd (h a) (Memory.read_ne_of_wfFrom hu (Memory.wfFrom_cons.mpr ⟨below, bTop, hv, hn'⟩))
      · have same : u = v := by simpa only [Memory.read_cons_same] using h a
        have rest (c : Nat) : Memory.read m c = Memory.read n c := by
          by_cases hc : c = a
          · rw [hc, Memory.read_of_wfFrom hm' (.inl a.lt_succ_self), Memory.read_of_wfFrom hn' (.inl a.lt_succ_self)]
          · simpa only [Memory.read_cons_other _ _ hc] using h c
        rw [same, ih hm' hn' rest]
      · exact absurd (h b).symm (Memory.read_ne_of_wfFrom hv (Memory.wfFrom_cons.mpr ⟨above, aTop, hu, hm'⟩))

/-! ## The memory of an image -/

/-- The image's bytes at the addresses below `k`, written one after the other. -/
def Memory.ofImage (image : Word → Byte) : Nat → Memory
  | 0 => []
  | k + 1 => (Memory.ofImage image k).write k (image (BitVec.ofNat 16 k))

theorem Memory.wf_ofImage (image : Word → Byte) {k : Nat} (hk : k ≤ 65536) : (Memory.ofImage image k).wf = true := by
  induction k with
  | zero => rfl
  | succ k ih => exact Memory.wf_write (ih (Nat.le_of_succ_le hk)) hk

theorem Memory.read_ofImage (image : Word → Byte) {k : Nat} {a : Word} (h : a.toNat < k) :
    (Memory.ofImage image k).read a.toNat = image a := by
  induction k with
  | zero => exact absurd h (Nat.not_lt_zero _)
  | succ k ih =>
    rw [Memory.ofImage, Memory.read_write]
    by_cases last : a.toNat = k
    · rw [if_pos last, ← last, BitVec.ofNat_toNat, BitVec.setWidth_eq]
    · rw [if_neg last, ih (by omega)]

/-- Settles O49: writing every byte of the image gives its memory, and two canonical memories that read alike at the
65536 addresses read alike everywhere. -/
theorem everyImageHasOneCanonicalMemory : Obligations.EveryImageHasOneCanonicalMemory := by
  refine ⟨fun image => ⟨Memory.ofImage image 65536, Memory.wf_ofImage image (Nat.le_refl _),
    fun a => Memory.read_ofImage image a.isLt⟩, fun m n hm hn h => ?_⟩
  refine Memory.eq_of_read_eq hm hn fun c => ?_
  by_cases hc : c < 65536
  · have word : (BitVec.ofNat 16 c).toNat = c := (BitVec.toNat_ofNat c 16).trans (Nat.mod_eq_of_lt hc)
    simpa only [word] using h (BitVec.ofNat 16 c)
  · rw [Memory.read_of_wfFrom hm (.inr (Nat.le_of_not_lt hc)), Memory.read_of_wfFrom hn (.inr (Nat.le_of_not_lt hc))]

/-! ## Reset -/

/-- Nothing is written at reset, whose memory is the image: the invariant is that of image and epc. -/
theorem State.inv_resetWith {image : Memory} {epc : Word} (x : Vector Word 8) (d : Nat) (hm : image.wf = true)
    (he : isOdd epc = false) : (State.resetWith image x epc d).Inv where
  mem := hm
  written := rfl
  epc := he

/-- Settles O51: the reset state is its arguments, and so is its invariant. -/
theorem resetStateAndInvariantAtReset : Obligations.ResetStateAndInvariantAtReset := by
  refine ⟨fun image x epc d => ?_, State.inv_resetWith _ 0 rfl rfl⟩
  have unwritten (a : Word) : (State.resetWith image x epc d).isWritten a = false :=
    decide_eq_false List.not_mem_nil
  exact ⟨rfl, rfl, unwritten, fun _ => rfl, fun _ => rfl, rfl, rfl, State.inv_resetWith x d⟩

end Sys2Proof.Machine
